-- ==== Sys2Proof/Word.lean ====
section
/-! DEFINITION. The word types of the hardware: the 16-bit word, the console byte, the 3-bit register index and the operand
fields of an instruction word (00_scope.md R6, R8, R9; 30_encoding.md R73). -/

namespace Sys2Proof

/-- `Word16`: a register, a memory word, an address (R9). Arithmetic on it is modulo 2^16. -/
abbrev Word := BitVec 16

/-- A byte of the console streams (10_state.md R31). -/
abbrev Byte := BitVec 8

/-- A register field: the unsigned index 0..7 of a general register (10_state.md R20, 30_encoding.md R73). -/
abbrev Reg := BitVec 3

/-- The immediate of ADD and AND, signed 5 bits (R73). -/
abbrev Imm5 := BitVec 5

/-- The base offset of LDR and STR, signed 6 bits (R73). -/
abbrev Off6 := BitVec 6

/-- The PC-relative offset of BR, LD, LDI, LEA, ST and STI, signed 9 bits (R73). -/
abbrev Off9 := BitVec 9

/-- The PC-relative offset of JSR, signed 11 bits (R73). -/
abbrev Off11 := BitVec 11

/-- The trap vector, unsigned 8 bits (R73). -/
abbrev Vec8 := BitVec 8

end Sys2Proof
end

