-- ==== Sys2Proof/Syntax.lean ====
section
/-! DEFINITION. The instructions: one constructor per row of spec/opcode_table.json, with the operand fields of its format
(30_encoding.md R72, R75 to R86). Bits the decoder ignores (R88) are no operands and are not kept. -/

namespace Sys2Proof

/-- One constructor per row of the opcode table. Rows that share words (BR and BRNZP; RET within JMP; the six trap aliases
within TRAP) are kept as spellings of their own: `WellFormed` says which spelling the decoder gives (log 9). -/
inductive Instr
  /-- ADD, register mode (R75, R170). -/
  | addReg (dr sr1 sr2 : Reg)
  /-- ADD, immediate mode (R76, R170). -/
  | addImm (dr sr1 : Reg) (imm5 : Imm5)
  /-- AND, register mode (R75, R171). -/
  | andReg (dr sr1 sr2 : Reg)
  /-- AND, immediate mode (R76, R171). -/
  | andImm (dr sr1 : Reg) (imm5 : Imm5)
  /-- NOT (R77, R172). -/
  | not (dr sr : Reg)
  /-- BR, the assembler's spelling of BRNZP (R124, R180). -/
  | br (off9 : Off9)
  /-- BRN, mask 100 (R78, R180). -/
  | brn (off9 : Off9)
  /-- BRZ, mask 010 (R78, R180). -/
  | brz (off9 : Off9)
  /-- BRP, mask 001 (R78, R180). -/
  | brp (off9 : Off9)
  /-- BRNZ, mask 110 (R78, R180). -/
  | brnz (off9 : Off9)
  /-- BRNP, mask 101 (R78, R180). -/
  | brnp (off9 : Off9)
  /-- BRZP, mask 011 (R78, R180). -/
  | brzp (off9 : Off9)
  /-- BRNZP, mask 111 (R78, R180). -/
  | brnzp (off9 : Off9)
  /-- The BR word with mask 000, which never branches; x0000 is one of them (R89, R180). -/
  | brNone (off9 : Off9)
  /-- JMP (R79, R181). -/
  | jmp (baseR : Reg)
  /-- RET, the JMP word with BaseR = 7 (R79, R182). -/
  | ret
  /-- JSR (R80, R184). -/
  | jsr (off11 : Off11)
  /-- JSRR (R81, R185). -/
  | jsrr (baseR : Reg)
  /-- LD (R82, R200). -/
  | ld (dr : Reg) (off9 : Off9)
  /-- LDI (R82, R201). -/
  | ldi (dr : Reg) (off9 : Off9)
  /-- LDR (R83, R202). -/
  | ldr (dr baseR : Reg) (off6 : Off6)
  /-- LEA (R82, R203). -/
  | lea (dr : Reg) (off9 : Off9)
  /-- ST (R82, R204). -/
  | st (sr : Reg) (off9 : Off9)
  /-- STI (R82, R205). -/
  | sti (sr : Reg) (off9 : Off9)
  /-- STR (R83, R206). -/
  | str (sr baseR : Reg) (off6 : Off6)
  /-- RTI, the whole opcode 1000 (R85, R186). -/
  | rti
  /-- The reserved opcode 1101 (R86, R187). -/
  | reserved
  /-- TRAP with its vector (R84, R220). -/
  | trap (vect8 : Vec8)
  /-- TRAP x20 (R222). -/
  | getc
  /-- TRAP x21 (R223). -/
  | out
  /-- TRAP x22 (R224). -/
  | puts
  /-- TRAP x23, the mnemonic IN (R225). -/
  | inp
  /-- TRAP x24, a mnemonic of the assembler that names no service of the core (R138, R226). -/
  | putsp
  /-- TRAP x25 (R227). -/
  | halt
  deriving DecidableEq, Repr

end Sys2Proof
end

