-- ==== Sys2Proof/WellFormed.lean ====
section
/-! DEFINITION. Which terms of `Instr` are the spelling the decoder gives their word. Operand ranges need no check: every value
of a field's width is an operand (30_encoding.md R87, R88, R90). -/

namespace Sys2Proof

/-- The vectors that have a mnemonic of their own: x20 to x25 (40_encoder.md R138). -/
def Vec8.hasMnemonic (v : Vec8) : Bool :=
  v == 0x20 || v == 0x21 || v == 0x22 || v == 0x23 || v == 0x24 || v == 0x25

/-- The term is the spelling its word decodes to (log 9). BR is spelt BRNZP (R124), JMP R7 is spelt RET (R182), and a TRAP whose
vector has a mnemonic is spelt by that mnemonic (R138). -/
def Instr.WellFormed : Instr → Bool
  | .br _ => false
  | .jmp baseR => baseR != 7
  | .trap vect8 => !vect8.hasMnemonic
  | .addReg _ _ _ | .addImm _ _ _ | .andReg _ _ _ | .andImm _ _ _ | .not _ _ => true
  | .brn _ | .brz _ | .brp _ | .brnz _ | .brnp _ | .brzp _ | .brnzp _ | .brNone _ => true
  | .ret | .jsr _ | .jsrr _ => true
  | .ld _ _ | .ldi _ _ | .ldr _ _ _ | .lea _ _ | .st _ _ | .sti _ _ | .str _ _ _ => true
  | .rti | .reserved | .getc | .out | .puts | .inp | .putsp | .halt => true

end Sys2Proof
end

