-- ==== Sys2Proof/Decode.lean ====
section
/-! DEFINITION. The decoder, total on every 16-bit word (30_encoding.md R70 to R90), and after it the encoder of an instruction
into its word, written from the same format tables (R75 to R86). The assembler, which reads text, is in Machine/AsmEncoder.lean. -/

namespace Sys2Proof

/-! ### Fields of an instruction word (30_encoding.md R74). UNVERIFIED, the spec's own (D10): log 10. -/

/-- `ir[15:12]` (R71). -/
def opcodeField (ir : Word) : BitVec 4 := ir.extractLsb' 12 4
/-- `ir[11:9]`: DR, or the SR of a store (R74). -/
def drField (ir : Word) : Reg := ir.extractLsb' 9 3
/-- `ir[8:6]`: SR1, SR or BaseR (R74). -/
def sr1Field (ir : Word) : Reg := ir.extractLsb' 6 3
/-- `ir[2:0]`: SR2 (R74). -/
def sr2Field (ir : Word) : Reg := ir.extractLsb' 0 3
/-- `ir[5]`: the operand-select bit of ADD and AND, 1 for the immediate (R74). -/
def immBit (ir : Word) : Bool := ir.getLsbD 5
/-- `ir[4:0]` (R74). -/
def imm5Field (ir : Word) : Imm5 := ir.extractLsb' 0 5
/-- `ir[5:0]` (R74). -/
def off6Field (ir : Word) : Off6 := ir.extractLsb' 0 6
/-- `ir[8:0]` (R74). -/
def off9Field (ir : Word) : Off9 := ir.extractLsb' 0 9
/-- `ir[11]`: the operand-mode bit of JSR and JSRR, 1 for JSR (R74). -/
def jsrBit (ir : Word) : Bool := ir.getLsbD 11
/-- `ir[10:0]` (R74). -/
def off11Field (ir : Word) : Off11 := ir.extractLsb' 0 11
/-- `ir[11:9]`: the n, z, p mask of BR (R74). -/
def nzpField (ir : Word) : BitVec 3 := ir.extractLsb' 9 3
/-- `ir[7:0]` (R74). -/
def vect8Field (ir : Word) : Vec8 := ir.extractLsb' 0 8

/-- Opcode 0000: the mask names the spelling (R78). -/
def decodeBr (mask : BitVec 3) (off9 : Off9) : Instr :=
  if mask = 0b000 then .brNone off9
  else if mask = 0b001 then .brp off9
  else if mask = 0b010 then .brz off9
  else if mask = 0b011 then .brzp off9
  else if mask = 0b100 then .brn off9
  else if mask = 0b101 then .brnp off9
  else if mask = 0b110 then .brnz off9
  else .brnzp off9

/-- Opcode 1100: BaseR = 7 is RET (R79, R182). -/
def decodeJmp (baseR : Reg) : Instr :=
  if baseR = 7 then .ret else .jmp baseR

/-- Opcode 1111: the vectors with a mnemonic are given by it (R84, R138, R221). -/
def decodeTrap (vect8 : Vec8) : Instr :=
  if vect8 = 0x20 then .getc
  else if vect8 = 0x21 then .out
  else if vect8 = 0x22 then .puts
  else if vect8 = 0x23 then .inp
  else if vect8 = 0x24 then .putsp
  else if vect8 = 0x25 then .halt
  else .trap vect8

/-- The decoder: `ir[15:12]` selects the class (R72), one bit or the vector the sub-form (R71). Every word has an instruction
(R90) and the bits shown as `.` in R75 to R86 are ignored (R88, log 11). -/
def decode (ir : Word) : Instr :=
  let op := opcodeField ir
  if op = 0b0000 then decodeBr (nzpField ir) (off9Field ir)
  else if op = 0b0001 then
    if immBit ir then .addImm (drField ir) (sr1Field ir) (imm5Field ir)
    else .addReg (drField ir) (sr1Field ir) (sr2Field ir)
  else if op = 0b0010 then .ld (drField ir) (off9Field ir)
  else if op = 0b0011 then .st (drField ir) (off9Field ir)
  else if op = 0b0100 then
    if jsrBit ir then .jsr (off11Field ir) else .jsrr (sr1Field ir)
  else if op = 0b0101 then
    if immBit ir then .andImm (drField ir) (sr1Field ir) (imm5Field ir)
    else .andReg (drField ir) (sr1Field ir) (sr2Field ir)
  else if op = 0b0110 then .ldr (drField ir) (sr1Field ir) (off6Field ir)
  else if op = 0b0111 then .str (drField ir) (sr1Field ir) (off6Field ir)
  else if op = 0b1000 then .rti
  else if op = 0b1001 then .not (drField ir) (sr1Field ir)
  else if op = 0b1010 then .ldi (drField ir) (off9Field ir)
  else if op = 0b1011 then .sti (drField ir) (off9Field ir)
  else if op = 0b1100 then decodeJmp (sr1Field ir)
  else if op = 0b1101 then .reserved
  else if op = 0b1110 then .lea (drField ir) (off9Field ir)
  else decodeTrap (vect8Field ir)

/-! ### The encoder -/

/-- A word of two register fields and six low bits: formats OPR, OPI, NOT, BASE, JMP and JSRR (R75 to R77, R79, R81, R83). -/
def packRegs (op : BitVec 4) (hi lo : BitVec 3) (low : BitVec 6) : Word := op ++ hi ++ lo ++ low

/-- A word of a three-bit field and nine low bits: formats PCREL and BR (R78, R82). -/
def packOff9 (op : BitVec 4) (hi : BitVec 3) (off9 : Off9) : Word := op ++ hi ++ off9

/-- A word of the operand-mode bit and eleven low bits: format JSR (R80). -/
def packOff11 (op : BitVec 4) (mode : BitVec 1) (off11 : Off11) : Word := op ++ mode ++ off11

/-- A word of eight low bits, bits [11:8] written as 0: format TRAP (R84, R88). -/
def packVect8 (op : BitVec 4) (vect8 : Vec8) : Word := op ++ 0b0000#4 ++ vect8

/-- A word of an opcode alone, bits [11:0] written as 0: formats RTI and RSVD (R85, R86). -/
def packOpcode (op : BitVec 4) : Word := op ++ 0b000000000000#12

/-- The word of an instruction (R75 to R86): ignored bits are written as 0, NOT's [5:0] as 111111 (R88). RTI is given the word of
its own format, x8000; what the assembler emits for the mnemonic RTI is `RTI_WORD` (R85, C1, log 8). The reserved opcode, which no
mnemonic emits (R86), is given xD000. -/
def encode : Instr → Word
  | .addReg dr sr1 sr2 => packRegs 0b0001 dr sr1 (0b000#3 ++ sr2)
  | .addImm dr sr1 imm5 => packRegs 0b0001 dr sr1 (0b1#1 ++ imm5)
  | .andReg dr sr1 sr2 => packRegs 0b0101 dr sr1 (0b000#3 ++ sr2)
  | .andImm dr sr1 imm5 => packRegs 0b0101 dr sr1 (0b1#1 ++ imm5)
  | .not dr sr => packRegs 0b1001 dr sr 0b111111
  | .br off9 => packOff9 0b0000 0b111 off9
  | .brn off9 => packOff9 0b0000 0b100 off9
  | .brz off9 => packOff9 0b0000 0b010 off9
  | .brp off9 => packOff9 0b0000 0b001 off9
  | .brnz off9 => packOff9 0b0000 0b110 off9
  | .brnp off9 => packOff9 0b0000 0b101 off9
  | .brzp off9 => packOff9 0b0000 0b011 off9
  | .brnzp off9 => packOff9 0b0000 0b111 off9
  | .brNone off9 => packOff9 0b0000 0b000 off9
  | .jmp baseR => packRegs 0b1100 0b000 baseR 0b000000
  | .ret => packRegs 0b1100 0b000 0b111 0b000000
  | .jsr off11 => packOff11 0b0100 0b1 off11
  | .jsrr baseR => packRegs 0b0100 0b000 baseR 0b000000
  | .ld dr off9 => packOff9 0b0010 dr off9
  | .ldi dr off9 => packOff9 0b1010 dr off9
  | .ldr dr baseR off6 => packRegs 0b0110 dr baseR off6
  | .lea dr off9 => packOff9 0b1110 dr off9
  | .st sr off9 => packOff9 0b0011 sr off9
  | .sti sr off9 => packOff9 0b1011 sr off9
  | .str sr baseR off6 => packRegs 0b0111 sr baseR off6
  | .rti => packOpcode 0b1000
  | .reserved => packOpcode 0b1101
  | .trap vect8 => packVect8 0b1111 vect8
  | .getc => packVect8 0b1111 0x20
  | .out => packVect8 0b1111 0x21
  | .puts => packVect8 0b1111 0x22
  | .inp => packVect8 0b1111 0x23
  | .putsp => packVect8 0b1111 0x24
  | .halt => packVect8 0b1111 0x25

/-- The spelling an instruction's word decodes to: itself for a well-formed term; BRNZP for BR, RET for JMP R7 and the mnemonic
of its vector for TRAP otherwise (log 9). -/
def Instr.decodedSpelling : Instr → Instr
  | .br off9 => .brnzp off9
  | .jmp baseR => decodeJmp baseR
  | .trap vect8 => decodeTrap vect8
  | i => i

/-! ### Words as the opcode table numbers them -/

/-- The 16-bit word of a table word of `nbits` bits: the bits above `nbits` are 0 (every instruction is one word, R70). -/
def tableWord (nbits w : Nat) : Word := BitVec.ofNat 16 (w % 2 ^ nbits)

/-- The instruction the decoder reads from a table word. No word is refused (R90); a width of more than one word is no
instruction (R70). -/
def decodeTableWord (nbits w : Nat) : Option Instr :=
  if nbits ≤ 16 then some (decode (tableWord nbits w)) else none

end Sys2Proof
end

