-- ==== Sys2Proof/Config.lean ====
section
/-! DEFINITION. The named parameters of 00_scope.md R7 at their defaults, and the machine's fixed numbers. Every operation that
depends on a parameter takes it as an argument; the values here are what the machine and the assembler use by default.
`MNEMONIC_TABLE` and `TRAP_ALIASES` are in Machine/AsmTable.lean beside the types of their entries. -/

namespace Sys2Proof.Config

/-- `MEM_INIT` at its default: what a word of memory that nothing has written reads as (R7, 10_state.md R42, D6).
DESIGN CHOICE of the spec, log 2: unsafe, a host may choose other contents, which `State.loadWith` takes as an argument. -/
def memInit (_ : Word) : Word := 0

/-- `JSRR_LINK_FIRST` at its default: JSRR writes R7 before it reads BaseR (R7, 43_control.md R185, D23).
DESIGN CHOICE of the spec, log 7: unsafe. `stepUnder`, `stepReport` and `drive` take it as an argument. -/
def jsrrLinkFirst : Bool := true

/-- The origin of `State.reset`. DESIGN CHOICE, log 3: the spec makes the origin an argument of the load (R40); x3000 is the
start state of 95_test_vectors.md. -/
def resetOrigin : Word := 0x3000

/-- `RTI_WORD` at its default: the word the assembler emits for the mnemonic RTI (R7, 40_encoder.md R137, D12). -/
def rtiWord : Word := 0x0000

/-- `PCREL_ACCEPTS_LITERAL` at its default (R7, 40_encoder.md R118, D25). -/
def pcrelAcceptsLiteral : Bool := false

/-- The two values of `STRINGZ_ADVANCE` (R7, 40_encoder.md R110, D32). -/
inductive StringzAdvance
  /-- Pass 1 advances by the character count. -/
  | count
  /-- Pass 1 advances by the character count plus one, the words Pass 2 emits. -/
  | countPlusOne
  deriving DecidableEq, Repr

/-- `STRINGZ_ADVANCE` at its default (R7, C3, D32). -/
def stringzAdvance : StringzAdvance := .countPlusOne

/-- `EMIT_ORIGIN_HEADER` at its default (R7, 40_encoder.md R142, D34). -/
def emitOriginHeader : Bool := false

end Sys2Proof.Config
end

