-- ==== Sys2Proof/Machine/State.lean ====
section
/-! DEFINITION. The state of the core between steps, exactly the record of 10_state.md R33, with the reasons a step can stop and
the state after reset. -/

namespace Sys2Proof.Machine

/-- The memory of 65536 words (10_state.md R30) as its list of (word address, word) pairs in canonical form (`Memory.wf`,
Machine/Ops.lean): addresses strictly rising, no entry equal to what an unlisted address reads as. The unit is the 16-bit word,
since no byte of memory has an address (20_memory.md R52, R53; log 1). -/
abbrev Memory := List (Nat × Word)

/-- The complete core state between steps (10_state.md R33). -/
structure State where
  /-- R0 to R7 (R20). -/
  regs : Vector Word 8
  /-- The program counter, a word address (R23). -/
  pc : Word
  /-- The condition flags, N = bit 2, Z = bit 1, P = bit 0 (R26). -/
  cond : BitVec 3
  /-- The memory (R30). -/
  mem : Memory
  /-- The bytes the host supplies and no service has consumed, next first (R31). A finite list: the spec says only "whatever the host
  will supply" (R43), and that the input ends is a DESIGN CHOICE, unsafe (log 23). -/
  inStream : List Byte
  /-- The bytes written so far, oldest first (R31). -/
  outStream : List Byte
  deriving DecidableEq, Repr

/-- Why a step has no next state. -/
inductive Fault
  /-- Raised by GETC and IN (and TRAP x20 and x23) when the host has supplied no byte: the step has no transition and the core is
  stuck in its pre-step state (41_sequencer.md R159, 60_exceptions.md R254; log 6). Safe. -/
  | awaitingInput
  deriving DecidableEq, Repr

/-- Why an instruction has no meaning. -/
inductive Refusal
  /-- Raised by an arm of `exec` whose instruction has no meaning yet; no arm of this model raises it. Safe. -/
  | notModelled (mnemonic : String)
  deriving DecidableEq, Repr

/-- The state right after reset with nothing loaded: registers zero (R39), no flag set (R41), memory at `MEM_INIT` (R42), nothing
written (R43). The origin is x3000 (log 3) and the input is empty (log 4), DESIGN CHOICES for two arguments of the load;
`State.load` (Machine/Load.lean) is the general reset of 70_reset_and_hazards.md R260. -/
def State.reset : State where
  regs := Vector.replicate 8 0
  pc := Config.resetOrigin
  cond := 0
  mem := []
  inStream := []
  outStream := []

end Sys2Proof.Machine
end

