-- ==== Sys2Proof/Machine/Flags.lean ====
section
/-! DEFINITION. The flag logic: what `setcc` writes and what BR tests (41_sequencer.md R152, 43_control.md R180). -/

namespace Sys2Proof.Machine

/-- The value `setcc(v)` writes to `cond`: Z for x0000, N when bit 15 is set, else P (R152). -/
def condOf (v : Word) : BitVec 3 :=
  if v = 0 then 0b010 else if v.msb then 0b100 else 0b001

/-- `setcc(v)` (R152). -/
def State.setcc (s : State) (v : Word) : State := { s with cond := condOf v }

/-- The test of BR: some masked flag is set (R180). -/
def branchTaken (mask cond : BitVec 3) : Bool := mask &&& cond != 0

end Sys2Proof.Machine
end

