-- ==== Sys2Proof/Machine/Ops.lean ====
section
/-! DEFINITION. The named operations over registers, memory and the console, and trap vectoring as one shared operation
(00_scope.md R12, 20_memory.md, 45_trap.md). -/

namespace Sys2Proof.Machine

/-! ### Registers -/

/-- `x[r]` (10_state.md R20, R12). -/
def State.reg (s : State) (r : Reg) : Word := s.regs[r.toNat]'r.isLt

/-- `x[r] <- v`; no register is hard-wired (R20). -/
def State.setReg (s : State) (r : Reg) (v : Word) : State := { s with regs := s.regs.set r.toNat v r.isLt }

/-- `pc <- t`; every word is an instruction address (10_state.md R25). -/
def State.setPc (s : State) (t : Word) : State := { s with pc := t }

/-! ### Memory -/

/-- The word at address `a`: the listed word, else `MEM_INIT` (R42). Every address is readable (20_memory.md R54, R58). -/
def Memory.read : Memory → Word → Word
  | [], a => Config.memInit a
  | (k, v) :: rest, a => if k = a.toNat then v else Memory.read rest a

/-- Puts a cell before the first cell of a higher address. -/
def Memory.insertCell (k : Nat) (v : Word) : Memory → Memory
  | [] => [(k, v)]
  | (j, w) :: rest => if k < j then (k, v) :: (j, w) :: rest else (j, w) :: Memory.insertCell k v rest

/-- The memory with the word at `a` replaced whole (20_memory.md R55). An address holding what an unlisted one reads as is not
listed, so the canonical form is kept. -/
def Memory.write (m : Memory) (a v : Word) : Memory :=
  let others := m.filter (fun c => c.1 != a.toNat)
  if v = Config.memInit a then others else Memory.insertCell a.toNat v others

/-- The canonical form of a memory: addresses below 65536 and strictly rising, no entry equal to what an unlisted address reads
as. -/
abbrev Memory.wf (m : Memory) : Prop :=
  m.Pairwise (fun c d => c.1 < d.1) ∧ ∀ c ∈ m, c.1 < 65536 ∧ c.2 ≠ Config.memInit (BitVec.ofNat 16 c.1)

/-- `MemRead(a, 1)` (R12). -/
def State.readWord (s : State) (a : Word) : Word := s.mem.read a

/-- `MemWrite(a, 1, v)` (R12). -/
def State.writeWord (s : State) (a v : Word) : State := { s with mem := s.mem.write a v }

/-! ### Console -/

/-- `ConsoleRead()`: the next byte of the input stream, or `none` while the host has supplied none (R12, 41_sequencer.md R159). -/
def State.consoleRead (s : State) : Option (Byte × State) :=
  match s.inStream with
  | [] => none
  | b :: rest => some (b, { s with inStream := rest })

/-- `ConsoleWrite(b)`: appends a byte; it always completes (R12, R159). -/
def State.consoleWrite (s : State) (b : Byte) : State := { s with outStream := s.outStream ++ [b] }

/-- Appends bytes in order (70_reset_and_hazards.md R267). -/
def State.consoleWriteAll (s : State) (bs : List Byte) : State := { s with outStream := s.outStream ++ bs }

/-! ### Fetch -/

/-- The word fetched at the start of a step (41_sequencer.md R150). -/
def State.fetch (s : State) : Word := s.readWord s.pc

/-- `pc <- pc + 1`, modulo 2^16, before the handler runs (10_state.md R24). -/
def State.advance (s : State) : State := s.setPc (s.pc + 1)

/-! ### The trap services (45_trap.md) -/

/-- GETC: a byte into R0, zero-extended; no echo (R222). Stuck without input (R159, log 6). -/
def serviceGetc (s : State) : Host.Outcome State Fault Refusal :=
  match s.consoleRead with
  | none => .fault .awaitingInput
  | some (b, s1) => .next (s1.setReg 0 (b.setWidth 16))

/-- OUT: writes the low byte of R0 (R223). -/
def serviceOut (s : State) : State := s.consoleWrite ((s.reg 0).setWidth 8)

/-- The scan of PUTS from `a`: the low bytes of the words up to the first that is x0000 or, unsigned, above 127 (R224). `fuel`
bounds the reads. -/
def putsScan : Nat → Memory → Word → List Byte
  | 0, _, _ => []
  | fuel + 1, m, a =>
    let w := m.read a
    if w = 0 then []
    else if 127 < w.toNat then []
    else w.setWidth 8 :: putsScan fuel m (a + 1)

/-- PUTS: writes the scanned bytes; R0 is unchanged (R224). The bound is the whole memory, and in a step the scan ends before it,
at the latest at the PUTS word itself (R224, C7; log 12). -/
def servicePuts (s : State) : State := s.consoleWriteAll (putsScan 65536 s.mem (s.reg 0))

/-- IN: reads a byte, echoes it, then writes R0; no prompt (R225). Stuck without input (R159, log 6). -/
def serviceIn (s : State) : Host.Outcome State Fault Refusal :=
  match s.consoleRead with
  | none => .fault .awaitingInput
  | some (b, s1) => .next ((s1.consoleWrite b).setReg 0 (b.setWidth 16))

/-- HALT: `pc <- x0000`; no other change, no halted state (R227). -/
def serviceHalt (s : State) : State := s.setPc 0

/-- An unrecognized opcode or vector: no effect beyond the fetch (41_sequencer.md R155, 45_trap.md R226). -/
def noOperation (s : State) : State := s

/-- The five services (45_trap.md R221). -/
inductive TrapService
  | getc | out | puts | inp | halt
  deriving DecidableEq, Repr

/-- The vector table: x20 to x23 and x25; the 251 other vectors name no service (R221). -/
def trapService (v : Vec8) : Option TrapService :=
  if v = 0x20 then some .getc
  else if v = 0x21 then some .out
  else if v = 0x22 then some .puts
  else if v = 0x23 then some .inp
  else if v = 0x25 then some .halt
  else none

/-- Taking a trap, the one entry this hardware has (60_exceptions.md R245): the service runs inside the step. Entry saves nothing
and changes no mode, and no flag is written (R220, R228); the service returns by leaving the incremented pc (R246). -/
def takeTrap (v : Vec8) (s : State) : Host.Outcome State Fault Refusal :=
  match trapService v with
  | some .getc => serviceGetc s
  | some .out => .next (serviceOut s)
  | some .puts => .next (servicePuts s)
  | some .inp => serviceIn s
  | some .halt => .next (serviceHalt s)
  | none => .next (noOperation s)

/-- The return from interrupt: a no-op, since no interrupt or privilege state exists (43_control.md R186, 60_exceptions.md
R246). -/
def returnFromInterrupt (s : State) : State := s

end Sys2Proof.Machine
end

