-- ==== Sys2Proof/Machine/Operands.lean ====
section
/-! DEFINITION. Operand assembly and addressing modes: sign extension to the word and the three ways an address is formed
(30_encoding.md R87, 44_load_store.md R207). `s` is the state the handler sees, its pc already incremented (41_sequencer.md R150). -/

namespace Sys2Proof.Machine

/-- `sext_N` to 16 bits (00_scope.md R10). -/
def sext {n : Nat} (v : BitVec n) : Word := v.signExtend 16

/-- The PC-relative address `pc + sext_9(off9)`, modulo 2^16 (R207, 20_memory.md R57). -/
def State.pcRel9 (s : State) (off9 : Off9) : Word := s.pc + sext off9

/-- The PC-relative target of JSR, `pc + sext_11(off11)` (43_control.md R184). -/
def State.pcRel11 (s : State) (off11 : Off11) : Word := s.pc + sext off11

/-- The base+offset address `x[BaseR] + sext_6(off6)` (R207). -/
def State.baseOff (s : State) (baseR : Reg) (off6 : Off6) : Word := s.reg baseR + sext off6

/-- The indirect address: the word at the PC-relative pointer (R207). -/
def State.indirect (s : State) (off9 : Off9) : Word := s.readWord (s.pcRel9 off9)

end Sys2Proof.Machine
end

