-- ==== Sys2Proof/Machine/Control.lean ====
section
/-! DEFINITION. BR, JMP, RET, JSR, JSRR, RTI and the reserved opcode (43_control.md). None writes the flags. -/

namespace Sys2Proof.Machine

/-- BR with a mask: `pc <- pc + sext_9(off9)` if a masked flag is set (R180). -/
def branch (mask : BitVec 3) (off9 : Off9) (s : State) : State :=
  if branchTaken mask s.cond then s.setPc (s.pcRel9 off9) else s

/-- BR, which is BRNZP (40_encoder.md R124, R180). -/
def execBr (off9 : Off9) (s : State) : Host.Outcome State Fault Refusal := .next (branch 0b111 off9 s)
/-- BRN (R180). -/
def execBrn (off9 : Off9) (s : State) : Host.Outcome State Fault Refusal := .next (branch 0b100 off9 s)
/-- BRZ (R180). -/
def execBrz (off9 : Off9) (s : State) : Host.Outcome State Fault Refusal := .next (branch 0b010 off9 s)
/-- BRP (R180). -/
def execBrp (off9 : Off9) (s : State) : Host.Outcome State Fault Refusal := .next (branch 0b001 off9 s)
/-- BRNZ (R180). -/
def execBrnz (off9 : Off9) (s : State) : Host.Outcome State Fault Refusal := .next (branch 0b110 off9 s)
/-- BRNP (R180). -/
def execBrnp (off9 : Off9) (s : State) : Host.Outcome State Fault Refusal := .next (branch 0b101 off9 s)
/-- BRZP (R180). -/
def execBrzp (off9 : Off9) (s : State) : Host.Outcome State Fault Refusal := .next (branch 0b011 off9 s)
/-- BRNZP (R180). -/
def execBrnzp (off9 : Off9) (s : State) : Host.Outcome State Fault Refusal := .next (branch 0b111 off9 s)
/-- The BR word with mask 000, which never branches (R180, 30_encoding.md R89). -/
def execBrNone (off9 : Off9) (s : State) : Host.Outcome State Fault Refusal := .next (branch 0b000 off9 s)

/-- `pc <- x[BaseR]` (R181). -/
def jumpTo (baseR : Reg) (s : State) : State := s.setPc (s.reg baseR)

/-- JMP (R181). -/
def execJmp (baseR : Reg) (s : State) : Host.Outcome State Fault Refusal := .next (jumpTo baseR s)

/-- RET, which is JMP R7 (R182). -/
def execRet (s : State) : Host.Outcome State Fault Refusal := .next (jumpTo 7 s)

/-- JSR: R7 gets the post-fetch pc, then `pc <- link + sext_11(off11)` (R184). -/
def execJsr (off11 : Off11) (s : State) : Host.Outcome State Fault Refusal :=
  .next ((s.setReg 7 s.pc).setPc (s.pcRel11 off11))

/-- JSRR under either value of `JSRR_LINK_FIRST`: with `true`, R7 is written before BaseR is read; with `false`, after (R185). -/
def callThrough (linkFirst : Bool) (baseR : Reg) (s : State) : State :=
  let linked := s.setReg 7 s.pc
  if linkFirst then linked.setPc (linked.reg baseR) else linked.setPc (s.reg baseR)

/-- JSRR at the default `JSRR_LINK_FIRST` (R185, D23; log 7); `execUnder` (Machine/Driver.lean) takes the parameter. -/
def execJsrr (baseR : Reg) (s : State) : Host.Outcome State Fault Refusal :=
  .next (callThrough Config.jsrrLinkFirst baseR s)

/-- RTI: a no-op (R186). -/
def execRti (s : State) : Host.Outcome State Fault Refusal := .next (returnFromInterrupt s)

/-- The reserved opcode 1101: a no-op (R187). Its status is reported by `stepStatus`. -/
def execReserved (s : State) : Host.Outcome State Fault Refusal := .next (noOperation s)

end Sys2Proof.Machine
end

