-- ==== Sys2Proof/Machine/LoadStore.lean ====
section
/-! DEFINITION. LD, LDI, LDR, LEA, ST, STI and STR (44_load_store.md). No base register is modified (R207). -/

namespace Sys2Proof.Machine

/-- LD: the word at `pc + sext_9(off9)`, with flags (R200). -/
def execLd (dr : Reg) (off9 : Off9) (s : State) : Host.Outcome State Fault Refusal :=
  .next (s.writeResult dr (s.readWord (s.pcRel9 off9)))

/-- LDI: the word at the address held at `pc + sext_9(off9)`, with flags from the final word (R201). -/
def execLdi (dr : Reg) (off9 : Off9) (s : State) : Host.Outcome State Fault Refusal :=
  .next (s.writeResult dr (s.readWord (s.indirect off9)))

/-- LDR: the word at `x[BaseR] + sext_6(off6)`, with flags (R202). -/
def execLdr (dr baseR : Reg) (off6 : Off6) (s : State) : Host.Outcome State Fault Refusal :=
  .next (s.writeResult dr (s.readWord (s.baseOff baseR off6)))

/-- LEA: the address `pc + sext_9(off9)` itself, with flags and no memory access (R203). -/
def execLea (dr : Reg) (off9 : Off9) (s : State) : Host.Outcome State Fault Refusal :=
  .next (s.writeResult dr (s.pcRel9 off9))

/-- ST: SR to `pc + sext_9(off9)`; no flags (R204). -/
def execSt (sr : Reg) (off9 : Off9) (s : State) : Host.Outcome State Fault Refusal :=
  .next (s.writeWord (s.pcRel9 off9) (s.reg sr))

/-- STI: SR to the address held at `pc + sext_9(off9)`, read before the write; no flags (R205). -/
def execSti (sr : Reg) (off9 : Off9) (s : State) : Host.Outcome State Fault Refusal :=
  .next (s.writeWord (s.indirect off9) (s.reg sr))

/-- STR: SR to `x[BaseR] + sext_6(off6)`; no flags (R206). -/
def execStr (sr baseR : Reg) (off6 : Off6) (s : State) : Host.Outcome State Fault Refusal :=
  .next (s.writeWord (s.baseOff baseR off6) (s.reg sr))

end Sys2Proof.Machine
end

