-- ==== Sys2Proof/Machine/Trap.lean ====
section
/-! DEFINITION. TRAP and the trap mnemonics (45_trap.md). None writes R7 or the flags (R220). -/

namespace Sys2Proof.Machine

/-- TRAP: the vector selects the service (R220, R221). -/
def execTrap (vect8 : Vec8) (s : State) : Host.Outcome State Fault Refusal := takeTrap vect8 s

/-- TRAP x20 (R222). -/
def execGetc (s : State) : Host.Outcome State Fault Refusal := serviceGetc s

/-- TRAP x21 (R223). -/
def execOut (s : State) : Host.Outcome State Fault Refusal := .next (serviceOut s)

/-- TRAP x22 (R224). -/
def execPuts (s : State) : Host.Outcome State Fault Refusal := .next (servicePuts s)

/-- TRAP x23 (R225). -/
def execIn (s : State) : Host.Outcome State Fault Refusal := serviceIn s

/-- TRAP x24: the core has no service of this vector, so it is a no-op (R226). -/
def execPutsp (s : State) : Host.Outcome State Fault Refusal := .next (noOperation s)

/-- TRAP x25 (R227). -/
def execHalt (s : State) : Host.Outcome State Fault Refusal := .next (serviceHalt s)

end Sys2Proof.Machine
end

