-- ==== Sys2Proof/Machine/Dispatch.lean ====
section
/-! DEFINITION. The dispatch of 41_sequencer.md R151: one arm per instruction, each calling that instruction's meaning. -/

namespace Sys2Proof.Machine

-- The handler of an instruction, run on the state after the fetch and the pc increment (R150).
def exec (i : Instr) (s : State) : Host.Outcome State Fault Refusal :=
  match i with
  -- operate (42_operate.md)
  | .addReg dr sr1 sr2 => Sys2Proof.Machine.execAddReg dr sr1 sr2 s
  | .addImm dr sr1 imm5 => Sys2Proof.Machine.execAddImm dr sr1 imm5 s
  | .andReg dr sr1 sr2 => Sys2Proof.Machine.execAndReg dr sr1 sr2 s
  | .andImm dr sr1 imm5 => Sys2Proof.Machine.execAndImm dr sr1 imm5 s
  | .not dr sr => Sys2Proof.Machine.execNot dr sr s
  -- control transfer (43_control.md)
  | .br off9 => Sys2Proof.Machine.execBr off9 s
  | .brn off9 => Sys2Proof.Machine.execBrn off9 s
  | .brz off9 => Sys2Proof.Machine.execBrz off9 s
  | .brp off9 => Sys2Proof.Machine.execBrp off9 s
  | .brnz off9 => Sys2Proof.Machine.execBrnz off9 s
  | .brnp off9 => Sys2Proof.Machine.execBrnp off9 s
  | .brzp off9 => Sys2Proof.Machine.execBrzp off9 s
  | .brnzp off9 => Sys2Proof.Machine.execBrnzp off9 s
  | .brNone off9 => Sys2Proof.Machine.execBrNone off9 s
  | .jmp baseR => Sys2Proof.Machine.execJmp baseR s
  | .ret => Sys2Proof.Machine.execRet s
  | .jsr off11 => Sys2Proof.Machine.execJsr off11 s
  | .jsrr baseR => Sys2Proof.Machine.execJsrr baseR s
  -- loads and stores (44_load_store.md)
  | .ld dr off9 => Sys2Proof.Machine.execLd dr off9 s
  | .ldi dr off9 => Sys2Proof.Machine.execLdi dr off9 s
  | .ldr dr baseR off6 => Sys2Proof.Machine.execLdr dr baseR off6 s
  | .lea dr off9 => Sys2Proof.Machine.execLea dr off9 s
  | .st sr off9 => Sys2Proof.Machine.execSt sr off9 s
  | .sti sr off9 => Sys2Proof.Machine.execSti sr off9 s
  | .str sr baseR off6 => Sys2Proof.Machine.execStr sr baseR off6 s
  | .rti => Sys2Proof.Machine.execRti s
  | .reserved => Sys2Proof.Machine.execReserved s
  -- traps (45_trap.md)
  | .trap vect8 => Sys2Proof.Machine.execTrap vect8 s
  | .getc => Sys2Proof.Machine.execGetc s
  | .out => Sys2Proof.Machine.execOut s
  | .puts => Sys2Proof.Machine.execPuts s
  | .inp => Sys2Proof.Machine.execIn s
  | .putsp => Sys2Proof.Machine.execPutsp s
  | .halt => Sys2Proof.Machine.execHalt s

end Sys2Proof.Machine
end

