-- ==== Sys2Proof/Machine/Step.lean ====
section
/-! DEFINITION. One step (41_sequencer.md R150), and the placing of an instruction where the next step fetches. -/

namespace Sys2Proof.Machine

/-- Fetch, advance the pc, decode, run the handler (R150). The step's outputs `step_ret` and `status` are in Machine/Driver.lean
(log 13). -/
def step (s : State) : Host.Outcome State Fault Refusal := exec (decode s.fetch) s.advance

/-- The state with a table word stored at the pc, where the next step fetches (log 5). -/
def State.withFetchWord (s : State) (nbits w : Nat) : State := s.writeWord s.pc (tableWord nbits w)

end Sys2Proof.Machine
end

