-- ==== Sys2Proof/Machine/AsmText.lean ====
section
/-! DEFINITION. The text side of the assembler: the line normalizer, tokens and the literal parser (40_encoder.md R100, R101,
R116). -/

namespace Sys2Proof.Asm

/-- A line of source text, without its line end. -/
abbrev Text := List Char

/-! ### The normalizer (R100) -/

/-- Strips everything from the first `;` onward (R100 step 1). -/
def stripComment (l : Text) : Text := l.takeWhile (· != ';')

/-- The separators: comma, tab, carriage return, form feed, vertical tab (R100 step 2). -/
def isSeparator (c : Char) : Bool :=
  c == ',' || c == '\t' || c == '\r' || c == '\x0c' || c == '\x0b'

/-- Each separator becomes one space (R100 step 2, D35). -/
def spaceSeparators (l : Text) : Text := l.map fun c => if isSeparator c then ' ' else c

/-- Trims leading and trailing whitespace (R100 step 3). -/
def trim (l : Text) : Text :=
  ((l.dropWhile Char.isWhitespace).reverse.dropWhile Char.isWhitespace).reverse

/-- The line normalizer: the four steps of R100 in order. Upper-casing is of ASCII letters (log 15). -/
def normalize (l : Text) : Text := (trim (spaceSeparators (stripComment l))).map Char.toUpper

/-! ### Tokens (R101) -/

/-- The maximal runs of non-space characters, in order; `run` is the current run, last character first. -/
def tokensFrom (run : Text) : Text → List Text
  | [] => if run.isEmpty then [] else [run.reverse]
  | c :: rest =>
    if c = ' ' then (if run.isEmpty then [] else [run.reverse]) ++ tokensFrom [] rest
    else tokensFrom (c :: run) rest

/-- The tokens of a normalized line (R101). -/
def tokens (l : Text) : List Text := tokensFrom [] l

/-- The line from its token number `n` (from 0) onward: what remains of a statement after `n` labels (R103). -/
def dropTokens : Nat → Text → Text
  | 0, l => l.dropWhile (· == ' ')
  | n + 1, l => dropTokens n ((l.dropWhile (· == ' ')).dropWhile (· != ' '))

/-- The text between the first and the last double quote, if there are two (R110, D35). -/
def quoted (l : Text) : Option Text :=
  match l.dropWhile (· != '"') with
  | [] => none
  | _ :: afterFirst =>
    match afterFirst.reverse.dropWhile (· != '"') with
    | [] => none
    | _ :: inner => some inner.reverse

/-! ### Literals (R116) -/

/-- A decimal digit's value. -/
def digitValue (c : Char) : Option Nat :=
  if '0' ≤ c ∧ c ≤ '9' then some (c.toNat - '0'.toNat) else none

/-- A hexadecimal digit's value; letters are upper case after normalization (R116 b). -/
def hexValue (c : Char) : Option Nat :=
  if 'A' ≤ c ∧ c ≤ 'F' then some (c.toNat - 'A'.toNat + 10) else digitValue c

/-- Digits in a base, most significant first, onto `acc`. -/
def digitsFrom (base : Nat) (value : Char → Option Nat) (acc : Nat) : Text → Option Nat
  | [] => some acc
  | c :: rest =>
    match value c with
    | none => none
    | some d => digitsFrom base value (acc * base + d) rest

/-- One or more digits. -/
def digits (base : Nat) (value : Char → Option Nat) (t : Text) : Option Nat :=
  if t.isEmpty then none else digitsFrom base value 0 t

/-- The literal parser: `#` with an optional sign and decimal digits, `X` with hex digits (never negative), or bare decimal
digits. Any other token has no value. The value is unbounded; each field checks its own range (R116, D27). -/
def literal : Text → Option Int
  | '#' :: '-' :: ds => (digits 10 digitValue ds).map fun n => -(n : Int)
  | '#' :: '+' :: ds => (digits 10 digitValue ds).map fun n => (n : Int)
  | '#' :: ds => (digits 10 digitValue ds).map fun n => (n : Int)
  | 'X' :: hs => (digits 16 hexValue hs).map fun n => (n : Int)
  | ds => (digits 10 digitValue ds).map fun n => (n : Int)

/-! ### Rendering (R142) -/

/-- A word as 16 binary digits, most significant first (R142). -/
def binaryText (w : Word) : Text :=
  (List.range 16).reverse.map fun k => if w.getLsbD k then '1' else '0'

/-- An upper-case hexadecimal digit. -/
def hexDigit (d : BitVec 4) : Char :=
  if d.toNat < 10 then Char.ofNat ('0'.toNat + d.toNat) else Char.ofNat ('A'.toNat + (d.toNat - 10))

/-- A word as 4 packed upper-case hexadecimal digits (R142). -/
def hexText (w : Word) : Text :=
  [hexDigit (w.extractLsb' 12 4), hexDigit (w.extractLsb' 8 4), hexDigit (w.extractLsb' 4 4), hexDigit (w.extractLsb' 0 4)]

end Sys2Proof.Asm
end

