-- ==== Sys2Proof/Machine/AsmTable.lean ====
section
/-! DEFINITION. The assembler's mnemonic table and trap aliases, its parameters, its failure classes and the records and symbols
it works on (00_scope.md R7, 10_state.md R34, 40_encoder.md R112, R114, R138, R143, R144). -/

namespace Sys2Proof.Asm

/-- The kinds of operand (R114), with the place of the field in the word (30_encoding.md R74). -/
inductive OperandKind
  /-- A register, its 3-bit field with its lowest bit at `lo` (R115). -/
  | reg (lo : Nat)
  /-- The third operand of ADD and AND: a register SR2, or an imm5 with the mode bit (R120). -/
  | regImm5
  /-- A label reference of 9 bits (R118). -/
  | pcRel9
  /-- A label reference of 11 bits (R118). -/
  | pcRel11
  /-- A signed 6-bit literal (R117). -/
  | off6
  /-- An unsigned 8-bit literal (R119). -/
  | trapVect8
  deriving DecidableEq, Repr

/-- An entry of the mnemonic table (R112). The required operand count is the number of operands. -/
structure MnemonicEntry where
  name : Text
  fixed : Word
  operands : List OperandKind
  deriving DecidableEq, Repr

/-- The 24 entries of R112 (C4, D15), RTI with its `RTI_WORD` (R137). -/
def mnemonicTable (rtiWord : Word) : List MnemonicEntry :=
  [ ⟨['A', 'D', 'D'], 0x1000, [.reg 9, .reg 6, .regImm5]⟩,
    ⟨['A', 'N', 'D'], 0x5000, [.reg 9, .reg 6, .regImm5]⟩,
    ⟨['N', 'O', 'T'], 0x903F, [.reg 9, .reg 6]⟩,
    ⟨['B', 'R'], 0x0E00, [.pcRel9]⟩,
    ⟨['B', 'R', 'N'], 0x0800, [.pcRel9]⟩,
    ⟨['B', 'R', 'Z'], 0x0400, [.pcRel9]⟩,
    ⟨['B', 'R', 'P'], 0x0200, [.pcRel9]⟩,
    ⟨['B', 'R', 'N', 'Z'], 0x0C00, [.pcRel9]⟩,
    ⟨['B', 'R', 'N', 'P'], 0x0A00, [.pcRel9]⟩,
    ⟨['B', 'R', 'Z', 'P'], 0x0600, [.pcRel9]⟩,
    ⟨['B', 'R', 'N', 'Z', 'P'], 0x0E00, [.pcRel9]⟩,
    ⟨['J', 'M', 'P'], 0xC000, [.reg 6]⟩ ] ++
  [ ⟨['R', 'E', 'T'], 0xC1C0, []⟩,
    ⟨['J', 'S', 'R'], 0x4800, [.pcRel11]⟩,
    ⟨['J', 'S', 'R', 'R'], 0x4000, [.reg 6]⟩,
    ⟨['L', 'D'], 0x2000, [.reg 9, .pcRel9]⟩,
    ⟨['L', 'D', 'I'], 0xA000, [.reg 9, .pcRel9]⟩,
    ⟨['L', 'D', 'R'], 0x6000, [.reg 9, .reg 6, .off6]⟩,
    ⟨['L', 'E', 'A'], 0xE000, [.reg 9, .pcRel9]⟩,
    ⟨['S', 'T'], 0x3000, [.reg 9, .pcRel9]⟩,
    ⟨['S', 'T', 'I'], 0xB000, [.reg 9, .pcRel9]⟩,
    ⟨['S', 'T', 'R'], 0x7000, [.reg 9, .reg 6, .off6]⟩,
    ⟨['T', 'R', 'A', 'P'], 0xF000, [.trapVect8]⟩,
    ⟨['R', 'T', 'I'], rtiWord, []⟩ ]

/-- The trap aliases with their vectors (R138, D16). -/
def trapAliases : List (Text × Vec8) :=
  [ (['G', 'E', 'T', 'C'], 0x20), (['O', 'U', 'T'], 0x21), (['P', 'U', 'T', 'S'], 0x22), (['I', 'N'], 0x23),
    (['P', 'U', 'T', 'S', 'P'], 0x24), (['H', 'A', 'L', 'T'], 0x25) ]

/-- The named parameters of the assembler (00_scope.md R7), each at its default. -/
structure Params where
  rtiWord : Word := Config.rtiWord
  mnemonics : List MnemonicEntry := mnemonicTable rtiWord
  aliases : List (Text × Vec8) := trapAliases
  pcrelAcceptsLiteral : Bool := Config.pcrelAcceptsLiteral
  stringzAdvance : Config.StringzAdvance := Config.stringzAdvance
  emitOriginHeader : Bool := Config.emitOriginHeader
  deriving DecidableEq, Repr

/-- The entry of a mnemonic. -/
def Params.entry (P : Params) (name : Text) : Option MnemonicEntry := P.mnemonics.find? (·.name == name)

/-- The vector of a trap alias. -/
def Params.aliasVector (P : Params) (name : Text) : Option Vec8 := (P.aliases.find? (·.1 == name)).map (·.2)

/-! ### The directives (R102) -/

/-- The five directives. -/
inductive Directive
  | orig | end_ | fill | blkw | stringz
  deriving DecidableEq, Repr

/-- The spelling of a directive (R102). -/
def directiveOf (t : Text) : Option Directive :=
  if t = ['.', 'O', 'R', 'I', 'G'] then some .orig
  else if t = ['.', 'E', 'N', 'D'] then some .end_
  else if t = ['.', 'F', 'I', 'L', 'L'] then some .fill
  else if t = ['.', 'B', 'L', 'K', 'W'] then some .blkw
  else if t = ['.', 'S', 'T', 'R', 'I', 'N', 'G', 'Z'] then some .stringz
  else none

/-- The token names a machine instruction or a trap alias (R107). -/
def Params.isOperation (P : Params) (t : Text) : Bool := (P.entry t).isSome || (P.aliasVector t).isSome

/-- The token is a known head: a directive, a mnemonic or a trap alias. Any other first token is a label (R102, R103). -/
def Params.isKnown (P : Params) (t : Text) : Bool := (directiveOf t).isSome || P.isOperation t

/-! ### Records, symbols and failures -/

/-- The kinds of record (10_state.md R34 b). -/
inductive RecordKind
  | operation | pseudo
  deriving DecidableEq, Repr

/-- An Instruction Record: its 16-bit address, its normalized text without labels, its kind (R34 b, R103). -/
structure Record where
  addr : Word
  text : Text
  kind : RecordKind
  deriving DecidableEq, Repr

/-- The symbol table, the latest binding first (R34 a). -/
abbrev SymTab := List (Text × Word)

/-- The lookup: `none` is the explicit "not found" outcome (R34 a). The last definition in source order wins (R111). -/
def SymTab.find (sym : SymTab) (label : Text) : Option Word := (sym.find? (fun b => b.1 == label)).map (·.2)

/-- The kinds of recoverable failure (R143). -/
inductive RecoverableKind
  | invalidOrigin | multipleOrigin | programBeforeOrigin | invalidFill | invalidBlkw | invalidString | addressOverflow
  | unresolvedLabel | fieldOverflow | invalidRegister | invalidLiteral
  deriving DecidableEq, Repr

/-- The failures of an assembly (R143, R144). -/
inductive Failure
  /-- Ends the current pass with a typed failure and no output (R143). -/
  | recoverable (kind : RecoverableKind)
  /-- `Fatal(ArityMismatch)`: ends the whole run with no output (R144). -/
  | fatalArityMismatch
  /-- The encoder was given a record that Pass 1 never makes, for which the spec gives no result (log 14). -/
  | outsideContract
  deriving DecidableEq, Repr

/-- `EncResult` (10_state.md R35): the words, or the failure. -/
abbrev EncResult := Except Failure (List Word)

end Sys2Proof.Asm
end

