-- ==== Sys2Proof/Machine/AsmEncoder.lean ====
section
/-! DEFINITION. The instruction encoder, the backend of Pass 2: the operand fields, one record to its words, and Pass 2 over the
records (10_state.md R35, 40_encoder.md R113 to R145). -/

namespace Sys2Proof.Asm

/-! ### Integer primitives (00_scope.md R11) -/

/-- `fits_s(N, v)` for a width N of at least 1. -/
def fitsSigned (n : Nat) (v : Int) : Bool := -(2 ^ (n - 1) : Int) ≤ v && v ≤ 2 ^ (n - 1) - 1

/-- `fits_u(N, v)`. -/
def fitsUnsigned (n : Nat) (v : Int) : Bool := 0 ≤ v && v ≤ 2 ^ n - 1

/-- `tc_N(v)`: v modulo 2^N as an N-bit field. -/
def twosComplement (n : Nat) (v : Int) : BitVec n := BitVec.ofInt n v

/-! ### Operand fields (R115 to R120) -/

/-- A register token is `R` and one digit 0..7; its field is the digit. Any other token fails (R115, D26). -/
def regField : Text → Except Failure Reg
  | ['R', d] =>
    match digitValue d with
    | some n => if n ≤ 7 then .ok (BitVec.ofNat 3 n) else .error (.recoverable .invalidRegister)
    | none => .error (.recoverable .invalidRegister)
  | _ => .error (.recoverable .invalidRegister)

/-- A signed value checked against its field width; a value that does not fit fails and is never truncated (R11, R117, R118). -/
def signedField (n : Nat) (v : Int) : Except Failure (BitVec n) :=
  if fitsSigned n v then .ok (twosComplement n v) else .error (.recoverable .fieldOverflow)

/-- A signed literal operand of width N (R117). -/
def literalField (n : Nat) (t : Text) : Except Failure (BitVec n) :=
  match literal t with
  | none => .error (.recoverable .invalidLiteral)
  | some v => signedField n v

/-- A label operand of width N: target - (address + 1) in unbounded integers (R118, D36). A token that is no label is a literal
offset only where `PCREL_ACCEPTS_LITERAL` (R118, D25). -/
def labelField (n : Nat) (acceptsLiteral : Bool) (sym : SymTab) (addr : Word) (t : Text) : Except Failure (BitVec n) :=
  match sym.find t with
  | some a => signedField n ((a.toNat : Int) - ((addr.toNat : Int) + 1))
  | none =>
    match if acceptsLiteral then literal t else none with
    | some v => signedField n v
    | none => .error (.recoverable .unresolvedLabel)

/-- The trap vector operand: 0..255, else a failure (R119, D28). -/
def vectField (t : Text) : Except Failure Vec8 :=
  match literal t with
  | none => .error (.recoverable .invalidLiteral)
  | some v => if fitsUnsigned 8 v then .ok (BitVec.ofInt 8 v) else .error (.recoverable .fieldOverflow)

/-- `R` followed by one or more decimal digits: a register operand in the third place of ADD and AND (R120, D26). -/
def isRegToken : Text → Bool
  | 'R' :: ds => !ds.isEmpty && ds.all fun c => (digitValue c).isSome
  | _ => false

/-- A field at its place in the word, its lowest bit at `lo`. -/
def place {n : Nat} (lo : Nat) (f : BitVec n) : Word := f.setWidth 16 <<< lo

/-- The bits an operand contributes to the word (R114 to R120). -/
def operandBits (P : Params) (sym : SymTab) (addr : Word) (kind : OperandKind) (t : Text) : Except Failure Word :=
  match kind with
  | .reg lo => (regField t).map (place lo)
  | .regImm5 =>
    if isRegToken t then (regField t).map (place 0)
    else (literalField 5 t).map fun f => 0x0020 ||| place 0 f
  | .pcRel9 => (labelField 9 P.pcrelAcceptsLiteral sym addr t).map (place 0)
  | .pcRel11 => (labelField 11 P.pcrelAcceptsLiteral sym addr t).map (place 0)
  | .off6 => (literalField 6 t).map (place 0)
  | .trapVect8 => (vectField t).map (place 0)

/-- The operands left to right onto the fixed bits; the first failing operand decides (R145 step 3). -/
def encodeOperands (P : Params) (sym : SymTab) (addr : Word) : Word → List OperandKind → List Text → Except Failure Word
  | w, kind :: kinds, t :: ts =>
    match operandBits P sym addr kind t with
    | .error e => .error e
    | .ok bits => encodeOperands P sym addr (w ||| bits) kinds ts
  | w, _, _ => .ok w

/-- An Operation record's word: the arity is checked before any operand (R113), then the fields of the mnemonic's entry
(R121 to R137); a trap alias takes no operand (R138). -/
def encodeOperation (P : Params) (sym : SymTab) (addr : Word) (name : Text) (operands : List Text) : Except Failure Word :=
  match P.entry name with
  | some e =>
    if operands.length = e.operands.length then encodeOperands P sym addr e.fixed e.operands operands
    else .error .fatalArityMismatch
  | none =>
    match P.aliasVector name with
    | some v => if operands.isEmpty then .ok (0xF000 ||| place 0 v) else .error .fatalArityMismatch
    | none => .error .outsideContract

/-! ### Pseudo records (R139 to R141) -/

/-- The operand of `.FILL`: an integer in [-65536, 65535] (R108, D30). -/
def fillValue : List Text → Option Int
  | [t] =>
    match literal t with
    | some v => if -65536 ≤ v ∧ v ≤ 65535 then some v else none
    | none => none
  | _ => none

/-- The operand of `.BLKW`: 0 to 65535 (R109, D30). -/
def blkwCount : List Text → Option Nat
  | [t] =>
    match literal t with
    | some v => if 0 ≤ v ∧ v ≤ 65535 then some v.toNat else none
    | none => none
  | _ => none

/-- A character's word, `zext_8` of its code (R141, log 15). -/
def charWord (c : Char) : Word := (BitVec.ofNat 8 c.toNat).setWidth 16

/-- The words of a directive whose operands are as Pass 1 requires (R139 to R141); `.FILL` is modulo 2^16 (D42). -/
def renderPseudo (text : Text) : EncResult :=
  match tokens text with
  | [] => .error .outsideContract
  | head :: operands =>
    match directiveOf head with
    | some .fill =>
      match fillValue operands with
      | some v => .ok [twosComplement 16 v]
      | none => .error .outsideContract
    | some .blkw =>
      match blkwCount operands with
      | some n => .ok (List.replicate n 0)
      | none => .error .outsideContract
    | some .stringz =>
      match quoted text with
      | some chars => .ok (chars.map charWord ++ [0])
      | none => .error .outsideContract
    | some .orig | some .end_ | none => .error .outsideContract

/-! ### One record, and Pass 2 -/

/-- `encode(rec, sym)` (10_state.md R35). -/
def encodeRecord (P : Params) (sym : SymTab) (r : Record) : EncResult :=
  match r.kind with
  | .operation =>
    match tokens r.text with
    | [] => .error .outsideContract
    | name :: operands => (encodeOperation P sym r.addr name operands).map fun w => [w]
  | .pseudo => renderPseudo r.text

/-- `pass2(records, sym)`: the words of every record in order, or the failure of the first record that fails (R35, R145). -/
def pass2 (P : Params) (sym : SymTab) : List Record → EncResult
  | [] => .ok []
  | r :: rs =>
    match encodeRecord P sym r with
    | .error e => .error e
    | .ok ws =>
      match pass2 P sym rs with
      | .error e => .error e
      | .ok rest => .ok (ws ++ rest)

end Sys2Proof.Asm
end

