-- ==== Sys2Proof/Machine/AsmPass.lean ====
section
/-! DEFINITION. Pass 1 and a whole assembly: the upstream contract that makes the encoder's records and symbols
(40_encoder.md R102 to R111, R145). -/

namespace Sys2Proof.Asm

/-- The state of Pass 1: `current_address` and `origin_address`, both unset at first (R102), the symbol table and the records so
far, and whether `.END` has been met (R106). The current address may reach 65536, one past the last word. -/
structure Pass1 where
  current : Option Nat
  origin : Option Word
  symbols : SymTab
  records : List Record
  ended : Bool
  deriving DecidableEq, Repr

/-- Pass 1 at its start (R102). -/
def Pass1.start : Pass1 where
  current := none
  origin := none
  symbols := []
  records := []
  ended := false

/-- Binds a statement's labels to the current address. A label before the origin fails (R103, R105), and so does one that would
be bound past xFFFF (R111, D41). -/
def Pass1.bindLabels (p : Pass1) : List Text → Except Failure Pass1
  | [] => .ok p
  | label :: labels =>
    match p.current with
    | none => .error (.recoverable .programBeforeOrigin)
    | some a =>
      if 65536 ≤ a then .error (.recoverable .addressOverflow)
      else { p with symbols := (label, BitVec.ofNat 16 a) :: p.symbols }.bindLabels labels

/-- Appends a record of `count` words at `addr` and advances by `advance`. A record whose words would extend past xFFFF, or whose
address is past it, fails (R107 to R111, D41; log 18). -/
def Pass1.append (p : Pass1) (addr : Nat) (text : Text) (kind : RecordKind) (count advance : Nat) : Except Failure Pass1 :=
  if 65536 ≤ addr ∨ 65536 < addr + count then .error (.recoverable .addressOverflow)
  else .ok { p with
    current := some (addr + advance)
    records := p.records ++ [{ addr := BitVec.ofNat 16 addr, text := text, kind := kind }] }

/-- The operand of `.ORIG`: 0 to 65535 (R104, D31). -/
def originValue : List Text → Option Nat
  | [t] =>
    match literal t with
    | some v => if 0 ≤ v ∧ v ≤ 65535 then some v.toNat else none
    | none => none
  | _ => none

/-- `.ORIG`: sets both addresses once, and appends no record (R104, D31; log 17). -/
def Pass1.setOrigin (p : Pass1) (operands : List Text) : Except Failure Pass1 :=
  match p.origin with
  | some _ => .error (.recoverable .multipleOrigin)
  | none =>
    match originValue operands with
    | some a => .ok { p with current := some a, origin := some (BitVec.ofNat 16 a) }
    | none => .error (.recoverable .invalidOrigin)

/-- How far Pass 1 advances for a string of `c` characters (R110, C3, D32). -/
def stringzStep (advance : Config.StringzAdvance) (c : Nat) : Nat :=
  match advance with
  | .count => c
  | .countPlusOne => c + 1

/-- A statement after its labels: `head` is its first token, `operands` the rest and `text` the whole (R104 to R110). A statement
before the origin fails (R105; for `.END`, log 16). -/
def Pass1.statement (P : Params) (p : Pass1) (text head : Text) (operands : List Text) : Except Failure Pass1 :=
  match directiveOf head with
  | some .orig => p.setOrigin operands
  | directive =>
    match p.current with
    | none => .error (.recoverable .programBeforeOrigin)
    | some a =>
      match directive with
      | some .end_ => .ok { p with ended := true }
      | some .fill =>
        match fillValue operands with
        | some _ => p.append a text .pseudo 1 1
        | none => .error (.recoverable .invalidFill)
      | some .blkw =>
        match blkwCount operands with
        | some n => p.append a text .pseudo n n
        | none => .error (.recoverable .invalidBlkw)
      | some .stringz =>
        match quoted text with
        | some chars => p.append a text .pseudo (chars.length + 1) (stringzStep P.stringzAdvance chars.length)
        | none => .error (.recoverable .invalidString)
      | some .orig | none => p.append a text .operation 1 1

/-- A normalized line: its leading unknown tokens are labels (R103), the rest a statement. An empty line is skipped (R100). -/
def Pass1.line (P : Params) (p : Pass1) (l : Text) : Except Failure Pass1 :=
  let labels := (tokens l).takeWhile (fun t => !P.isKnown t)
  match p.bindLabels labels with
  | .error e => .error e
  | .ok bound =>
    match (tokens l).drop labels.length with
    | [] => .ok bound
    | head :: operands => bound.statement P (dropTokens labels.length l) head operands

/-- Pass 1 over normalized lines in source order, to `.END`, to the end of the input (R106, D33) or to its first failure (R111). -/
def pass1From (P : Params) (p : Pass1) : List Text → Except Failure Pass1
  | [] => .ok p
  | l :: ls =>
    if p.ended then .ok p
    else
      match p.line P l with
      | .error e => .error e
      | .ok next => pass1From P next ls

/-- Pass 1 (R102 to R111). -/
def pass1 (P : Params) (ls : List Text) : Except Failure Pass1 := pass1From P Pass1.start ls

/-- The origin word that precedes the image where `EMIT_ORIGIN_HEADER` (R142, D34). -/
def originHeader (P : Params) (p : Pass1) : List Word := if P.emitOriginHeader then p.origin.toList else []

/-- The program image: "the ordered word stream emitted by Pass 2, anchored at the address declared by the program-origin
directive" (glossary, R35). The origin is for the loader, which receives it separately (R142, 70_reset_and_hazards.md R261). -/
structure Image where
  origin : Option Word
  words : List Word
  deriving DecidableEq, Repr

/-- Pass 2 over the result of Pass 1 (R35, R145). -/
def Pass1.image (P : Params) (p : Pass1) : Except Failure Image :=
  match pass2 P p.symbols p.records with
  | .error e => .error e
  | .ok ws => .ok { origin := p.origin, words := originHeader P p ++ ws }

/-- A whole assembly of source lines: the normalizer, Pass 1 and, if it succeeds, Pass 2 (R100, R145). -/
def assemble (P : Params) (source : List Text) : Except Failure Image :=
  match pass1 P (source.map normalize) with
  | .error e => .error e
  | .ok p => p.image P

end Sys2Proof.Asm
end

