-- ==== Sys2Proof/Machine/Driver.lean ====
section
/-! DEFINITION. The step under either value of `JSRR_LINK_FIRST` (00_scope.md R7), what a step reports beside the next state, and
the stop convention of the driver (10_state.md R37, 41_sequencer.md R153, R154, 60_exceptions.md R241, 70_reset_and_hazards.md
R270). -/

namespace Sys2Proof.Machine

/-! ### The step with `JSRR_LINK_FIRST` an argument (00_scope.md R7; log 7) -/

/-- `exec` under either value of `JSRR_LINK_FIRST`, the one parameter a handler depends on. JSRR is its one reader (43_control.md
R185); every other instruction is as `exec` has it. -/
def execUnder (linkFirst : Bool) (i : Instr) (s : State) : Host.Outcome State Fault Refusal :=
  match i with
  | .jsrr baseR => .next (callThrough linkFirst baseR s)
  | other => exec other s

/-- `step` under either value of `JSRR_LINK_FIRST` (41_sequencer.md R150). -/
def stepUnder (linkFirst : Bool) (s : State) : Host.Outcome State Fault Refusal :=
  execUnder linkFirst (decode s.fetch) s.advance

/-! ### The outputs of a step, and the driver -/

/-- The status of a step (R154, R241): output only, never state. -/
inductive StepStatus
  | ok
  | unrecognizedOpcode
  | unrecognizedTrap
  deriving DecidableEq, Repr

/-- The status of a fetched word (R154): it depends on the word alone. -/
def stepStatus (ir : Word) : StepStatus :=
  if opcodeField ir = 0b1101 then .unrecognizedOpcode
  else if opcodeField ir = 0b1111 && (trapService (vect8Field ir)).isNone then .unrecognizedTrap
  else .ok

/-- `step_ret`: x0000 if the fetched word was x0000, else the pc after the handler (R153). -/
def stepReturn (ir : Word) (after : State) : Word := if ir = 0 then 0 else after.pc

/-- What one step gives back: `(s', step_ret, status)` (R37). -/
structure StepReport where
  after : State
  stepRet : Word
  status : StepStatus
  deriving DecidableEq, Repr

/-- One step with its outputs (R37, R150), `JSRR_LINK_FIRST` an argument (R7). -/
def stepReport (s : State) (linkFirst : Bool := Config.jsrrLinkFirst) : Host.Outcome StepReport Fault Refusal :=
  match stepUnder linkFirst s with
  | .next t => .next { after := t, stepRet := stepReturn s.fetch t, status := stepStatus s.fetch }
  | .fault f => .fault f
  | .refused r => .refused r

/-- Where a driven run stands. -/
inductive DriveResult
  /-- A step returned x0000: the run has ended at this state (R37, R270). -/
  | ended (s : State)
  /-- The steps allowed are used up and none returned x0000. -/
  | running (s : State)
  /-- This state has no transition (R159, R254). -/
  | stuck (s : State) (f : Fault)
  /-- The instruction at this state has no meaning. -/
  | refused (s : State) (r : Refusal)
  deriving DecidableEq, Repr

/-- The driver: steps until one returns x0000, at most `n` times (R37), `JSRR_LINK_FIRST` an argument (R7). -/
def drive (n : Nat) (s : State) (linkFirst : Bool := Config.jsrrLinkFirst) : DriveResult :=
  match n with
  | 0 => .running s
  | n + 1 =>
    match stepReport s linkFirst with
    | .next r => if r.stepRet = 0 then .ended r.after else drive n r.after linkFirst
    | .fault f => .stuck s f
    | .refused r => .refused s r

end Sys2Proof.Machine
end

