-- ==== Sys2Proof/Machine/Load.lean ====
section
/-! DEFINITION. The load procedure that builds the initial state (70_reset_and_hazards.md R260, 10_state.md R36, R39 to R44). -/

namespace Sys2Proof.Machine

/-- The memory of a `MEM_INIT`: the addresses whose word differs from what an unlisted address reads as, in order (R42). -/
def Memory.ofInit (init : Word → Word) : Memory :=
  (List.range 65536).filterMap fun k =>
    if init (BitVec.ofNat 16 k) = Config.memInit (BitVec.ofNat 16 k) then none else some (k, init (BitVec.ofNat 16 k))

/-- Writes the words of an image at successive addresses from `a` (R42, R260). -/
def Memory.writeImage : Memory → Word → List Word → Memory
  | m, _, [] => m
  | m, a, w :: ws => Memory.writeImage (m.write a w) (a + 1) ws

/-- The register file at reset: the first eight values modulo 2^16 when at least eight are supplied, else all zero (R39, D8). -/
def loadRegs : Option (List Int) → Vector Word 8
  | some (r0 :: r1 :: r2 :: r3 :: r4 :: r5 :: r6 :: r7 :: _) =>
    #v[BitVec.ofInt 16 r0, BitVec.ofInt 16 r1, BitVec.ofInt 16 r2, BitVec.ofInt 16 r3,
      BitVec.ofInt 16 r4, BitVec.ofInt 16 r5, BitVec.ofInt 16 r6, BitVec.ofInt 16 r7]
  | _ => Vector.replicate 8 0

/-- The result of a load (R260). -/
inductive LoadResult
  /-- The initial state. -/
  | loaded (s : State)
  /-- The image extends past xFFFF: no run starts (R260, D7). -/
  | imageDoesNotFit
  deriving DecidableEq, Repr

/-- `load(origin, ws, regs)` over an initial memory (R260); the input stream is an argument of the run (R43). -/
def State.loadOver (init : Memory) (origin : Word) (ws : List Word) (regs : Option (List Int)) (input : List Byte) :
    LoadResult :=
  if 65536 < origin.toNat + ws.length then .imageDoesNotFit
  else .loaded
    { regs := loadRegs regs, pc := origin, cond := 0, mem := init.writeImage origin ws, inStream := input, outStream := [] }

/-- `load` at the default `MEM_INIT` (R260, D6). -/
def State.load (origin : Word) (ws : List Word) (regs : Option (List Int)) (input : List Byte) : LoadResult :=
  State.loadOver [] origin ws regs input

/-- `load` with `MEM_INIT` an argument (R7, R269). -/
def State.loadWith (init : Word → Word) (origin : Word) (ws : List Word) (regs : Option (List Int)) (input : List Byte) :
    LoadResult :=
  State.loadOver (Memory.ofInit init) origin ws regs input

end Sys2Proof.Machine
end

