-- ==== Sys2Proof/Safety.lean ====
section
/-! DEFINITION. The words claims are stated in: what a state keeps from another, the effect of an instruction with its frame, and the
invariant every step keeps. Memory is compared through the read of one word, register by register through the read of one
register. -/

namespace Sys2Proof.Machine

/-! ### What is kept -/

/-- Every general register is unchanged. -/
def KeepsRegs (s t : State) : Prop := ∀ r, t.reg r = s.reg r

/-- Every general register but `q` is unchanged. -/
def KeepsRegsBut (q : Reg) (s t : State) : Prop := ∀ r, r ≠ q → t.reg r = s.reg r

/-- Every word of memory is unchanged. -/
def KeepsMem (s t : State) : Prop := ∀ a, t.readWord a = s.readWord a

/-- Every word of memory but the one at `a` is unchanged. -/
def KeepsMemBut (a : Word) (s t : State) : Prop := ∀ b, b ≠ a → t.readWord b = s.readWord b

/-- No input is consumed and nothing is written. -/
def KeepsStreams (s t : State) : Prop := t.inStream = s.inStream ∧ t.outStream = s.outStream

/-- The flags show the sign of `v`: Z when it is zero, N when it is negative as a signed word, else P (10_state.md R26,
95_test_vectors.md V9). -/
def FlagsShow (v : Word) (t : State) : Prop := t.cond = if v = 0 then 2 else if v.toInt < 0 then 4 else 1

/-! ### Effects with their frames. `s` is the state the handler is given, its pc already incremented. -/

/-- `dr` holds `v`, the flags show `v`, and nothing else changed. -/
def WroteResult (dr : Reg) (v : Word) (s t : State) : Prop :=
  t.reg dr = v ∧ FlagsShow v t ∧ KeepsRegsBut dr s t ∧ t.pc = s.pc ∧ KeepsMem s t ∧ KeepsStreams s t

/-- The pc is `a`, and nothing else changed. -/
def WentTo (a : Word) (s t : State) : Prop :=
  t.pc = a ∧ KeepsRegs s t ∧ t.cond = s.cond ∧ KeepsMem s t ∧ KeepsStreams s t

/-- R7 holds the post-fetch pc, the pc is `a`, and nothing else changed. -/
def Called (a : Word) (s t : State) : Prop :=
  t.reg 7 = s.pc ∧ t.pc = a ∧ KeepsRegsBut 7 s t ∧ t.cond = s.cond ∧ KeepsMem s t ∧ KeepsStreams s t

/-- The word at `a` is `v`, and nothing else changed. -/
def Stored (a v : Word) (s t : State) : Prop :=
  t.readWord a = v ∧ KeepsMemBut a s t ∧ KeepsRegs s t ∧ t.cond = s.cond ∧ t.pc = s.pc ∧ KeepsStreams s t

/-- The byte `b` was taken from the input and put, zero-extended, into R0, `echo` was written, and nothing else changed. -/
def TookInput (b : Byte) (echo : List Byte) (s t : State) : Prop :=
  s.inStream = b :: t.inStream ∧ t.reg 0 = b.zeroExtend 16 ∧ t.outStream = s.outStream ++ echo ∧ KeepsRegsBut 0 s t ∧
    t.cond = s.cond ∧ t.pc = s.pc ∧ KeepsMem s t

/-- The bytes `bs` were written, and nothing else changed. -/
def Wrote (bs : List Byte) (s t : State) : Prop :=
  t.outStream = s.outStream ++ bs ∧ t.inStream = s.inStream ∧ KeepsRegs s t ∧ t.cond = s.cond ∧ t.pc = s.pc ∧ KeepsMem s t

/-- A word PUTS writes: a character value of 1 to 127 (45_trap.md R224). -/
def Printable (w : Word) : Prop := w ≠ 0 ∧ w.toNat ≤ 127

/-! ### The invariant -/

/-- The flags hold one of their legal values: none set, as at reset, or exactly one of N, Z, P (10_state.md R26, R41). -/
def LegalCond (c : BitVec 3) : Prop := c = 0 ∨ c = 1 ∨ c = 2 ∨ c = 4

/-- Exactly one flag is set (10_state.md R26). -/
def OneHot (c : BitVec 3) : Prop := c = 1 ∨ c = 2 ∨ c = 4

/-- The invariant every step keeps: memory in canonical form, and the flags legal. -/
def Inv (s : State) : Prop := s.mem.wf ∧ LegalCond s.cond

/-- A word with its ignored bits as the encoder writes them (30_encoding.md R75 to R86, R88): 0, but 111111 in NOT. -/
def canonicalWord (ir : Word) : Word :=
  let op := ir.extractLsb' 12 4
  if (op = 0b0001 ∨ op = 0b0101) ∧ ir.getLsbD 5 = false then ir &&& 0xFFE7
  else if op = 0b0100 ∧ ir.getLsbD 11 = false then ir &&& 0xF1C0
  else if op = 0b1000 ∨ op = 0b1101 then ir &&& 0xF000
  else if op = 0b1001 then ir ||| 0x003F
  else if op = 0b1100 then ir &&& 0xF1C0
  else if op = 0b1111 then ir &&& 0xF0FF
  else ir

end Sys2Proof.Machine

namespace Sys2Proof.Asm

/-- The character of a decimal digit. -/
def decChar (d : Fin 10) : Char := Char.ofNat ('0'.toNat + d.val)

/-- The upper-case character of a hexadecimal digit. -/
def hexChar (d : Fin 16) : Char := if d.val < 10 then Char.ofNat ('0'.toNat + d.val) else Char.ofNat ('A'.toNat + (d.val - 10))

/-- The number a digit list of a base stands for, most significant first. -/
def digitsValue {n : Nat} (ds : List (Fin n)) : Nat := ds.foldl (fun v d => v * n + d.val) 0

end Sys2Proof.Asm
end

