-- ==== Sys2Proof/Certificates/Slice0/Obligations.lean ====
section
/-! DEFINITION. The statements about this hardware. Per instruction, `s` is the state its handler is given: the fetch has already
advanced the pc (41_sequencer.md R150). In the format clauses a don't-care field is a variable of its own; the opcode numbers and the
places of the fields are the layout the spec recovered from general knowledge (D10, log 10), and sums are modulo 2^16 (D5, log 19). -/

open Sys2Proof Sys2Proof.Machine

/-! ### Decoding -/

/-- Words of the spec's own examples decode to the instructions they stand for (40_encoder.md R121 to R138, 43_control.md R186, R187,
42_operate.md, 44_load_store.md). A sanity check over one word of each family. Where a word has two
spellings (x0FFE is BR and BRNZP, xC1C0 is RET and JMP R7, a TRAP with a named vector), the spelling decode gives is the model's choice
(log 9). -/
def Obligations.SpecExampleWordsDecode : Prop :=
  decode 0x1021 = .addImm 0 0 1 ∧ decode 0x1283 = .addReg 1 2 3 ∧ decode 0x5730 = .andImm 3 4 0b10000 ∧
    decode 0x92BF = .not 1 2 ∧ decode 0x0FFE = .brnzp 0b111111110 ∧ decode 0x05FF = .brz 0b111111111 ∧
    decode 0xC0C0 = .jmp 3 ∧ decode 0xC1C0 = .ret ∧ decode 0x4BFF = .jsr 1023 ∧ decode 0x4140 = .jsrr 5 ∧
    decode 0x2204 = .ld 1 4 ∧ decode 0xA404 = .ldi 2 4 ∧ decode 0x63A0 = .ldr 1 6 0b100000 ∧ decode 0xE0FF = .lea 0 255 ∧
    decode 0x3700 = .st 3 0b100000000 ∧ decode 0xB9EF = .sti 4 0b111101111 ∧ decode 0x759F = .str 2 6 31 ∧
    decode 0x8000 = .rti ∧ decode 0xD123 = .reserved ∧ decode 0xF024 = .putsp ∧ decode 0xFF25 = .halt

/-- Decoding the word of an instruction gives the instruction back, with every operand at every value, for every term that is the
spelling its word decodes to, which is the model's choice where a word has several (log 9) (30_encoding.md R91; the two exceptions of
R91 do not arise here: RTI is given the word x8000 of its own format, log 8, and don't-care bits are no operands). -/
def Obligations.DecodeInvertsEncode : Prop :=
  ∀ i : Instr, i.WellFormed = true → decode (encode i) = i

/-- Every word decodes to a well-formed instruction, whose word is the given one with its ignored bits as the encoder writes them,
and two words that differ in ignored bits only decode alike (30_encoding.md R88, R90; that the bits are ignored is the spec's
decision D11, log 11). Which spelling a shared word decodes to, and so which terms are well-formed, is the model's choice (log 9), and
so is the word the encoder of `Instr` gives RTI and the reserved opcode, x8000 and xD000 (log 8): the spec's assembler emits `RTI_WORD`
for the one (R85) and never the other (R86). -/
def Obligations.IgnoredBitsCarryNothing : Prop :=
  (∀ ir : Word, (decode ir).WellFormed = true ∧ encode (decode ir) = canonicalWord ir) ∧
    ∀ ir ir' : Word, canonicalWord ir = canonicalWord ir' → decode ir = decode ir'

/-- Every spelling executes as the spelling its word decodes to: BR as BRNZP, JMP R7 as RET, TRAP with a vector that has a mnemonic as
that mnemonic (log 9). -/
def Obligations.SharedWordsExecuteAlike : Prop :=
  ∀ (i : Instr) (s : State), exec (decode (encode i)) s = exec i s

/-! ### The step -/

/-- A step reads the word at the pc, advances the pc by one modulo 2^16, and runs the handler of the instruction the word decodes to;
what it reports is the handler's state, `step_ret` and the status of the fetched word (41_sequencer.md R150). -/
def Obligations.StepFetchesAdvancesExecutes : Prop :=
  ∀ (s : State) (i : Instr), decode (s.readWord s.pc) = i →
    step s = exec i { s with pc := s.pc + 1 } ∧
    ∀ t, exec i { s with pc := s.pc + 1 } = .next t →
      stepReport s = .next
        { after := t
          stepRet := if s.readWord s.pc = 0 then 0 else t.pc
          status := stepStatus (s.readWord s.pc) }

/-- The status of a step is `unrecognized_opcode` exactly for opcode 1101, `unrecognized_trap` exactly for a TRAP whose vector is none
of the five services, and else `ok` (41_sequencer.md R154, 60_exceptions.md R241; the form of the outcome is the spec's decision
D14). -/
def Obligations.StatusNamesUnrecognizedWords : Prop :=
  ∀ ir : Word,
    (stepStatus ir = .unrecognizedOpcode ↔ ir.extractLsb' 12 4 = 0b1101) ∧
    (stepStatus ir = .unrecognizedTrap ↔ ir.extractLsb' 12 4 = 0b1111 ∧
      ir.extractLsb' 0 8 ≠ 0x20 ∧ ir.extractLsb' 0 8 ≠ 0x21 ∧ ir.extractLsb' 0 8 ≠ 0x22 ∧ ir.extractLsb' 0 8 ≠ 0x23 ∧
      ir.extractLsb' 0 8 ≠ 0x25)

/-- A step fails to complete exactly when it executes GETC or IN with no input byte, and then by the one fault of the model; no step is
refused (60_exceptions.md R240, R254, 41_sequencer.md R159; that an exhausted input is a stuck step is the spec's decision D22, log 6). -/
def Obligations.StepStopsOnlyForInput : Prop :=
  ∀ s : State,
    (∀ f, step s = .fault f ↔
      (f = .awaitingInput ∧ s.inStream = [] ∧ (s.readWord s.pc).extractLsb' 12 4 = 0b1111 ∧
        ((s.readWord s.pc).extractLsb' 0 8 = 0x20 ∨ (s.readWord s.pc).extractLsb' 0 8 = 0x23))) ∧
    ∀ r, step s ≠ .refused r

/-! ### Operate -/

/-- ADD: DR gets SR1 plus SR2 or the sign-extended imm5, modulo 2^16, and the flags show it; the formats are OPR and OPI
(42_operate.md R170). -/
def Obligations.AddWritesSumAndFlags : Prop :=
  (∀ (dr sr1 sr2 : Reg) (s : State), ∃ t, exec (.addReg dr sr1 sr2) s = .next t ∧
      WroteResult dr (s.reg sr1 + s.reg sr2) s t) ∧
    (∀ (dr sr1 : Reg) (imm5 : Imm5) (s : State), ∃ t, exec (.addImm dr sr1 imm5) s = .next t ∧
      WroteResult dr (s.reg sr1 + imm5.signExtend 16) s t) ∧
    (∀ (dr sr1 sr2 : Reg) (dots : BitVec 2), decode (0b0001#4 ++ dr ++ sr1 ++ 0b0#1 ++ dots ++ sr2) = .addReg dr sr1 sr2) ∧
    ∀ (dr sr1 : Reg) (imm5 : Imm5), decode (0b0001#4 ++ dr ++ sr1 ++ 0b1#1 ++ imm5) = .addImm dr sr1 imm5

/-- AND: DR gets the bitwise AND of SR1 with SR2 or the sign-extended imm5, and the flags show it; the formats are OPR and OPI
(42_operate.md R171). -/
def Obligations.AndWritesConjunctionAndFlags : Prop :=
  (∀ (dr sr1 sr2 : Reg) (s : State), ∃ t, exec (.andReg dr sr1 sr2) s = .next t ∧
      WroteResult dr (s.reg sr1 &&& s.reg sr2) s t) ∧
    (∀ (dr sr1 : Reg) (imm5 : Imm5) (s : State), ∃ t, exec (.andImm dr sr1 imm5) s = .next t ∧
      WroteResult dr (s.reg sr1 &&& imm5.signExtend 16) s t) ∧
    (∀ (dr sr1 sr2 : Reg) (dots : BitVec 2), decode (0b0101#4 ++ dr ++ sr1 ++ 0b0#1 ++ dots ++ sr2) = .andReg dr sr1 sr2) ∧
    ∀ (dr sr1 : Reg) (imm5 : Imm5), decode (0b0101#4 ++ dr ++ sr1 ++ 0b1#1 ++ imm5) = .andImm dr sr1 imm5

/-- NOT: DR gets the bitwise complement of SR, and the flags show it; bits [5:0] are ignored by the decoder and
written 111111 by the encoder (42_operate.md R172). -/
def Obligations.NotWritesComplementAndFlags : Prop :=
  (∀ (dr sr : Reg) (s : State), ∃ t, exec (.not dr sr) s = .next t ∧ WroteResult dr (~~~(s.reg sr)) s t) ∧
    (∀ (dr sr : Reg) (dots : BitVec 6), decode (0b1001#4 ++ dr ++ sr ++ dots) = .not dr sr) ∧
    ∀ dr sr : Reg, encode (.not dr sr) = 0b1001#4 ++ dr ++ sr ++ 0b111111#6

/-! ### Control transfer -/

/-- BR, all spellings and the mask 000: the pc moves by the sign-extended offset exactly when a masked flag is set, and nothing else
changes; the format is BR (43_control.md R180). That mask 111 decodes to the spelling BRNZP and not BR is the model's choice (log 9). -/
def Obligations.BranchTestsMaskedFlags : Prop :=
  (∀ (off9 : Off9) (s : State) (i : Instr) (mask : BitVec 3),
      (i, mask) ∈ [(Instr.brNone off9, 0b000#3), (.brp off9, 0b001#3), (.brz off9, 0b010#3), (.brzp off9, 0b011#3),
        (.brn off9, 0b100#3), (.brnp off9, 0b101#3), (.brnz off9, 0b110#3), (.brnzp off9, 0b111#3), (.br off9, 0b111#3)] →
      ∃ t, exec i s = .next t ∧
        WentTo (if mask &&& s.cond ≠ 0 then s.pc + off9.signExtend 16 else s.pc) s t) ∧
    ∀ off9 : Off9,
      decode (0b0000#4 ++ 0b000#3 ++ off9) = .brNone off9 ∧ decode (0b0000#4 ++ 0b001#3 ++ off9) = .brp off9 ∧
      decode (0b0000#4 ++ 0b010#3 ++ off9) = .brz off9 ∧ decode (0b0000#4 ++ 0b011#3 ++ off9) = .brzp off9 ∧
      decode (0b0000#4 ++ 0b100#3 ++ off9) = .brn off9 ∧ decode (0b0000#4 ++ 0b101#3 ++ off9) = .brnp off9 ∧
      decode (0b0000#4 ++ 0b110#3 ++ off9) = .brnz off9 ∧ decode (0b0000#4 ++ 0b111#3 ++ off9) = .brnzp off9

/-- JMP and RET: the pc gets the base register, R7 for RET, and nothing else changes; bits [11:9] and [5:0] are ignored
(43_control.md R181, R182). That base R7 decodes to the spelling RET is the model's choice (log 9). -/
def Obligations.JumpGoesToRegister : Prop :=
  (∀ (baseR : Reg) (s : State), ∃ t, exec (.jmp baseR) s = .next t ∧ WentTo (s.reg baseR) s t) ∧
    (∀ s : State, ∃ t, exec .ret s = .next t ∧ WentTo (s.reg 7) s t) ∧
    (∀ s : State, exec (.jmp 7) s = exec .ret s) ∧
    ∀ (dots : BitVec 3) (baseR : Reg) (dots' : BitVec 6),
      decode (0b1100#4 ++ dots ++ baseR ++ dots') = if baseR = 7 then .ret else .jmp baseR

/-- JSR: R7 gets the post-fetch pc and the pc that link plus the sign-extended offset; no flag changes; the format is JSR
(43_control.md R184). -/
def Obligations.CallLinksAndGoesRelative : Prop :=
  (∀ (off11 : Off11) (s : State), ∃ t, exec (.jsr off11) s = .next t ∧ Called (s.pc + off11.signExtend 16) s t) ∧
    ∀ off11 : Off11, decode (0b0100#4 ++ 0b1#1 ++ off11) = .jsr off11

/-- JSRR: R7 gets the post-fetch pc and the pc the base register, read after the link is written, so that JSRR R7 continues at the next
instruction; under the other value of `JSRR_LINK_FIRST` the base is read first, and the two orders differ only for R7
(43_control.md R185). The default order is the spec's decision D23 (log 7). -/
def Obligations.CallThroughRegisterLinksFirst : Prop :=
  (∀ (baseR : Reg) (s : State), ∃ t, exec (.jsrr baseR) s = .next t ∧
      Called (if baseR = 7 then s.pc else s.reg baseR) s t) ∧
    (∀ (baseR : Reg) (s : State), Called (s.reg baseR) s (callThrough false baseR s)) ∧
    (∀ (baseR : Reg) (s : State), exec (.jsrr baseR) s = .next (callThrough true baseR s)) ∧
    (∀ (baseR : Reg) (s : State), baseR ≠ 7 → callThrough true baseR s = callThrough false baseR s) ∧
    ∀ (dots : BitVec 2) (baseR : Reg) (dots' : BitVec 6),
      decode (0b0100#4 ++ 0b0#1 ++ dots ++ baseR ++ dots') = .jsrr baseR

/-- RTI and the reserved opcode have no effect beyond the fetch, whatever their low bits; RTI's status is `ok`, the reserved opcode's
`unrecognized_opcode` (43_control.md R186, R187). -/
def Obligations.RtiAndReservedDoNothing : Prop :=
  (∀ s : State, exec .rti s = .next s ∧ exec .reserved s = .next s) ∧
    ∀ dots : BitVec 12,
      decode (0b1000#4 ++ dots) = .rti ∧ stepStatus (0b1000#4 ++ dots) = .ok ∧
      decode (0b1101#4 ++ dots) = .reserved ∧ stepStatus (0b1101#4 ++ dots) = .unrecognizedOpcode

/-! ### Loads and stores -/

/-- LD: DR gets the word at pc plus the sign-extended offset, and the flags show it; the format is PCREL (44_load_store.md R200). -/
def Obligations.LoadDirect : Prop :=
  (∀ (dr : Reg) (off9 : Off9) (s : State), ∃ t, exec (.ld dr off9) s = .next t ∧
      WroteResult dr (s.readWord (s.pc + off9.signExtend 16)) s t) ∧
    ∀ (dr : Reg) (off9 : Off9), decode (0b0010#4 ++ dr ++ off9) = .ld dr off9

/-- LDI: DR gets the word at the address held at pc plus the sign-extended offset, and the flags show the final word, not the pointer;
the format is PCREL (44_load_store.md R201). -/
def Obligations.LoadIndirect : Prop :=
  (∀ (dr : Reg) (off9 : Off9) (s : State), ∃ t, exec (.ldi dr off9) s = .next t ∧
      WroteResult dr (s.readWord (s.readWord (s.pc + off9.signExtend 16))) s t) ∧
    ∀ (dr : Reg) (off9 : Off9), decode (0b1010#4 ++ dr ++ off9) = .ldi dr off9

/-- LDR: DR gets the word at the base register plus the sign-extended offset, the base read before DR is written, and the flags show it;
the format is BASE (44_load_store.md R202). -/
def Obligations.LoadBaseOffset : Prop :=
  (∀ (dr baseR : Reg) (off6 : Off6) (s : State), ∃ t, exec (.ldr dr baseR off6) s = .next t ∧
      WroteResult dr (s.readWord (s.reg baseR + off6.signExtend 16)) s t) ∧
    ∀ (dr baseR : Reg) (off6 : Off6), decode (0b0110#4 ++ dr ++ baseR ++ off6) = .ldr dr baseR off6

/-- LEA: DR gets the address pc plus the sign-extended offset itself, and the flags show it; the format is PCREL
(44_load_store.md R203). -/
def Obligations.LoadEffectiveAddress : Prop :=
  (∀ (dr : Reg) (off9 : Off9) (s : State), ∃ t, exec (.lea dr off9) s = .next t ∧
      WroteResult dr (s.pc + off9.signExtend 16) s t) ∧
    ∀ (dr : Reg) (off9 : Off9), decode (0b1110#4 ++ dr ++ off9) = .lea dr off9

/-- ST: the word at pc plus the sign-extended offset becomes SR; every other word, every register and the flags stay; the format is
PCREL (44_load_store.md R204). -/
def Obligations.StoreDirect : Prop :=
  (∀ (sr : Reg) (off9 : Off9) (s : State), ∃ t, exec (.st sr off9) s = .next t ∧
      Stored (s.pc + off9.signExtend 16) (s.reg sr) s t) ∧
    ∀ (sr : Reg) (off9 : Off9), decode (0b0011#4 ++ sr ++ off9) = .st sr off9

/-- STI: the word at the address held at pc plus the sign-extended offset, read before the write, becomes SR; every other word, every
register and the flags stay; the format is PCREL (44_load_store.md R205). -/
def Obligations.StoreIndirect : Prop :=
  (∀ (sr : Reg) (off9 : Off9) (s : State), ∃ t, exec (.sti sr off9) s = .next t ∧
      Stored (s.readWord (s.pc + off9.signExtend 16)) (s.reg sr) s t) ∧
    ∀ (sr : Reg) (off9 : Off9), decode (0b1011#4 ++ sr ++ off9) = .sti sr off9

/-- STR: the word at the base register plus the sign-extended offset becomes SR; every other word, every register and the flags stay;
the format is BASE (44_load_store.md R206). -/
def Obligations.StoreBaseOffset : Prop :=
  (∀ (sr baseR : Reg) (off6 : Off6) (s : State), ∃ t, exec (.str sr baseR off6) s = .next t ∧
      Stored (s.reg baseR + off6.signExtend 16) (s.reg sr) s t) ∧
    ∀ (sr baseR : Reg) (off6 : Off6), decode (0b0111#4 ++ sr ++ baseR ++ off6) = .str sr baseR off6

/-- A word stored where the next step fetches is the instruction the next step runs (20_memory.md R63, 70_reset_and_hazards.md R265; the
spec's decision D9). -/
def Obligations.NextFetchSeesStore : Prop :=
  ∀ (s t : State) (a : Word) (sr : Reg) (i : Instr),
    ((∃ off9, i = .st sr off9 ∧ a = s.pc + off9.signExtend 16) ∨
      (∃ off9, i = .sti sr off9 ∧ a = s.readWord (s.pc + off9.signExtend 16)) ∨
      ∃ baseR off6, i = .str sr baseR off6 ∧ a = s.reg baseR + off6.signExtend 16) →
    exec i s = .next t → a = s.pc → step t = exec (decode (s.reg sr)) { t with pc := s.pc + 1 }

/-! ### Traps -/

/-- TRAP: the vector selects the service and every other vector does nothing; a TRAP completes unless it asks for input that is not
there, and bits [11:8] are ignored (45_trap.md R220, R221, R226). The vector numbers are the spec's decision D17 (log 10). -/
def Obligations.TrapSelectsService : Prop :=
  (∀ (v : Vec8) (s : State), (v = 0x20 ∨ v = 0x23 → s.inStream ≠ []) → ∃ t, exec (.trap v) s = .next t ∧
      (v = 0x20 → ∃ b, TookInput b [] s t) ∧
      (v = 0x21 → Wrote [(s.reg 0).truncate 8] s t) ∧
      (v = 0x22 → exec .puts s = .next t) ∧
      (v = 0x23 → ∃ b, TookInput b [b] s t) ∧
      (v = 0x25 → WentTo 0 s t) ∧
      (v ≠ 0x20 → v ≠ 0x21 → v ≠ 0x22 → v ≠ 0x23 → v ≠ 0x25 → t = s)) ∧
    (∀ s : State, exec (.trap 0x20) s = exec .getc s ∧ exec (.trap 0x21) s = exec .out s ∧
      exec (.trap 0x22) s = exec .puts s ∧ exec (.trap 0x23) s = exec .inp s ∧ exec (.trap 0x24) s = exec .putsp s ∧
      exec (.trap 0x25) s = exec .halt s) ∧
    ∀ (dots : BitVec 4) (v : Vec8), exec (decode (0b1111#4 ++ dots ++ v)) = exec (.trap v)

/-- An unrecognized vector, PUTSP's x24 among them, is a no-op: the step's only change is the fetch's advance of the pc, and its status
is `unrecognized_trap` (45_trap.md R226, 41_sequencer.md R155). The vector numbers are the spec's decision D17 (log 10). -/
def Obligations.UnrecognizedTrapIsNoOp : Prop :=
  (∀ s : State, exec .putsp s = .next s) ∧
    ∀ s : State, (s.readWord s.pc).extractLsb' 12 4 = 0b1111 →
      (s.readWord s.pc).extractLsb' 0 8 ∉ [0x20, 0x21, 0x22, 0x23, 0x25] →
      stepReport s = .next { after := { s with pc := s.pc + 1 }, stepRet := s.pc + 1, status := .unrecognizedTrap }

/-- GETC takes the next input byte into R0, zero-extended, without echo; without input the step has no transition (45_trap.md R222,
41_sequencer.md R159). The zero extension and the stuck step are the spec's decisions D19 and D22 (log 6). -/
def Obligations.GetcTakesOneByte : Prop :=
  (∀ (s : State) (b : Byte) (rest : List Byte), s.inStream = b :: rest →
      ∃ t, exec .getc s = .next t ∧ TookInput b [] s t) ∧
    ∀ s : State, s.inStream = [] → exec .getc s = .fault .awaitingInput

/-- IN takes the next input byte into R0, zero-extended, and writes it to the output, with no prompt; without input the step has no
transition (45_trap.md R225, 41_sequencer.md R159). The missing prompt and the stuck step are the spec's decisions D20 and D22 (log 6). -/
def Obligations.InTakesAndEchoesOneByte : Prop :=
  (∀ (s : State) (b : Byte) (rest : List Byte), s.inStream = b :: rest →
      ∃ t, exec .inp s = .next t ∧ TookInput b [b] s t) ∧
    ∀ s : State, s.inStream = [] → exec .inp s = .fault .awaitingInput

/-- OUT writes the low byte of R0, whatever its high byte, and changes nothing else (45_trap.md R223). -/
def Obligations.OutWritesLowByte : Prop :=
  ∀ s : State, ∃ t, exec .out s = .next t ∧ Wrote [(s.reg 0).extractLsb' 0 8] s t

/-- PUTS writes the low bytes of the words from the address in R0 up to the first that is x0000 or, unsigned, above 127, and changes
nothing else (45_trap.md R224; the unsigned comparison is the spec's decision D21). The bound of 65536 words is the model's own
(log 12) and no step reaches it, as `PutsEndsWithinMemory` says. -/
def Obligations.PutsWritesString : Prop :=
  ∀ s : State, ∃ t n, exec .puts s = .next t ∧ n ≤ 65536 ∧
    (∀ k < n, Printable (s.readWord (s.reg 0 + BitVec.ofNat 16 k))) ∧
    (n < 65536 → ¬ Printable (s.readWord (s.reg 0 + BitVec.ofNat 16 n))) ∧
    Wrote ((List.range n).map fun k => (s.readWord (s.reg 0 + BitVec.ofNat 16 k)).extractLsb' 0 8) s t

/-- In a step the scan of PUTS ends at a word of memory, at the latest at the PUTS instruction's own word: PUTS has no stuck case and
needs no bound (45_trap.md R224, C7). -/
def Obligations.PutsEndsWithinMemory : Prop :=
  ∀ s : State, (s.readWord s.pc).extractLsb' 12 4 = 0b1111 → (s.readWord s.pc).extractLsb' 0 8 = 0x22 →
    ∃ t n, step s = .next t ∧ n < 65536 ∧ n ≤ (s.pc - s.reg 0).toNat ∧
      ¬ Printable (s.readWord (s.reg 0 + BitVec.ofNat 16 n)) ∧ t.pc = s.pc + 1 ∧
      t.outStream = s.outStream ++ (List.range n).map fun k => (s.readWord (s.reg 0 + BitVec.ofNat 16 k)).extractLsb' 0 8

/-- HALT sets the pc to x0000 and changes nothing else, and its step returns x0000, whatever bits [11:8] are (45_trap.md R227; that no
message is written and no halted state kept are the spec's decisions D37 and D39). -/
def Obligations.HaltZeroesPc : Prop :=
  (∀ s : State, ∃ t, exec .halt s = .next t ∧ WentTo 0 s t) ∧
    ∀ s : State, (s.readWord s.pc).extractLsb' 12 4 = 0b1111 → (s.readWord s.pc).extractLsb' 0 8 = 0x25 →
      stepReport s = .next { after := { s with pc := 0 }, stepRet := 0, status := .ok }

/-! ### Rules of the whole machine -/

/-- Every step keeps the memory in canonical form and the flags at a legal value (10_state.md R26; the canonical form is the model's,
log 1). -/
def Obligations.StepKeepsInvariant : Prop :=
  ∀ s t : State, Inv s → step s = .next t → Inv t

/-- The invariant holds right after reset: no flag is set (10_state.md R41), and the memory, which lists nothing (R42), is in canonical
form, which is the model's choice (log 1). -/
def Obligations.ResetMeetsInvariant : Prop := Inv State.reset

/-- After any flag-writing instruction exactly one flag is set, and once exactly one is set that stays so: no step brings the reset value
0 back (10_state.md R26, 70_reset_and_hazards.md R262). -/
def Obligations.FlagsStayOneHot : Prop :=
  ∀ s t : State, step s = .next t →
    (OneHot s.cond → OneHot t.cond) ∧
    ((s.readWord s.pc).extractLsb' 12 4 ∈ [0b0001#4, 0b0101#4, 0b1001#4, 0b0010#4, 0b1010#4, 0b0110#4, 0b1110#4] →
      OneHot t.cond)

/-- Exactly ADD, AND, NOT, LD, LDI, LDR and LEA write the flags, each from the value it leaves in its destination register; every other
instruction leaves them; and the only reader is BR: any other step from states that differ in the flags alone ends alike but for the
flags (10_state.md R27). -/
def Obligations.FlagWritersAndReader : Prop :=
  ∀ s : State,
    (∀ t, step s = .next t →
      ((s.readWord s.pc).extractLsb' 12 4 ∈ [0b0001#4, 0b0101#4, 0b1001#4, 0b0010#4, 0b1010#4, 0b0110#4, 0b1110#4] →
        FlagsShow (t.reg ((s.readWord s.pc).extractLsb' 9 3)) t) ∧
      ((s.readWord s.pc).extractLsb' 12 4 ∉ [0b0001#4, 0b0101#4, 0b1001#4, 0b0010#4, 0b1010#4, 0b0110#4, 0b1110#4] →
        t.cond = s.cond)) ∧
    ∀ c, (s.readWord s.pc).extractLsb' 12 4 ≠ 0b0000 →
      (∀ t, step s = .next t → ∃ t', step { s with cond := c } = .next t' ∧ { t' with cond := t.cond } = t) ∧
      ∀ f, step s = .fault f → step { s with cond := c } = .fault f

/-- A step writes at most one general register: DR for the operate and load instructions, R7 for JSR and JSRR, which gets the post-fetch
pc, R0 for the two input services, which gets the input byte; every other step writes none (10_state.md R21, 41_sequencer.md R157).
The vector numbers are the spec's decision D17 (log 10). -/
def Obligations.RegisterWriters : Prop :=
  ∀ s t : State, step s = .next t →
    ((s.readWord s.pc).extractLsb' 12 4 ∈ [0b0001#4, 0b0101#4, 0b1001#4, 0b0010#4, 0b1010#4, 0b0110#4, 0b1110#4] →
      KeepsRegsBut ((s.readWord s.pc).extractLsb' 9 3) s t) ∧
    ((s.readWord s.pc).extractLsb' 12 4 = 0b0100 → KeepsRegsBut 7 s t ∧ t.reg 7 = s.pc + 1) ∧
    ((s.readWord s.pc).extractLsb' 12 4 = 0b1111 →
      ((s.readWord s.pc).extractLsb' 0 8 = 0x20 ∨ (s.readWord s.pc).extractLsb' 0 8 = 0x23 →
        KeepsRegsBut 0 s t ∧ ∃ b rest, s.inStream = b :: rest ∧ t.reg 0 = b.zeroExtend 16) ∧
      ((s.readWord s.pc).extractLsb' 0 8 ≠ 0x20 → (s.readWord s.pc).extractLsb' 0 8 ≠ 0x23 → KeepsRegs s t)) ∧
    ((s.readWord s.pc).extractLsb' 12 4 ∈
        [0b0000#4, 0b0011#4, 0b0111#4, 0b1000#4, 0b1011#4, 0b1100#4, 0b1101#4] → KeepsRegs s t)

/-- After load, memory changes only through ST, STI and STR, each of which changes no word but the one at its own effective address,
formed in the state after the fetch; no trap service writes memory (20_memory.md R65, R51). -/
def Obligations.OnlyStoresChangeMemory : Prop :=
  ∀ s t : State, step s = .next t → let ir := s.readWord s.pc; let op := ir.extractLsb' 12 4
    (op ∉ [0b0011#4, 0b1011#4, 0b0111#4] → KeepsMem s t) ∧
    (op = 0b0011 → KeepsMemBut (s.advance.pcRel9 (ir.extractLsb' 0 9)) s t) ∧
    (op = 0b1011 → KeepsMemBut (s.advance.indirect (ir.extractLsb' 0 9)) s t) ∧
    (op = 0b0111 → KeepsMemBut (s.advance.baseOff (ir.extractLsb' 6 3) (ir.extractLsb' 0 6)) s t)

/-- The next pc comes from exactly the sources of the next-PC multiplexer: the incremented pc, the two PC-relative targets, the base
register (for JSRR, as read after the link is written), and x0000 for HALT (41_sequencer.md R156). The vector number is the spec's
decision D17, and JSRR's order its decision D23 (log 7, log 10). -/
def Obligations.NextPcSources : Prop :=
  ∀ s t : State, step s = .next t → let ir := s.readWord s.pc; let op := ir.extractLsb' 12 4
    (op = 0b0000 → t.pc = if ir.extractLsb' 9 3 &&& s.cond ≠ 0 then s.pc + 1 + (ir.extractLsb' 0 9).signExtend 16
      else s.pc + 1) ∧
    (op = 0b1100 → t.pc = s.reg (ir.extractLsb' 6 3)) ∧
    (op = 0b0100 → t.pc = if ir.getLsbD 11 then s.pc + 1 + (ir.extractLsb' 0 11).signExtend 16
      else t.reg (ir.extractLsb' 6 3)) ∧
    (op = 0b1111 → t.pc = if ir.extractLsb' 0 8 = 0x25 then 0 else s.pc + 1) ∧
    (op ≠ 0b0000 → op ≠ 0b1100 → op ≠ 0b0100 → op ≠ 0b1111 → t.pc = s.pc + 1)

/-- A step only appends to the output and only TRAP does so; it consumes input exactly when it is GETC or IN, then exactly one byte, the
next one; IN's echo is the byte it consumed (70_reset_and_hazards.md R267, 10_state.md R31). The vector numbers are the spec's decision
D17 (log 10). -/
def Obligations.StreamsMoveInOrder : Prop :=
  ∀ s t : State, step s = .next t → let ir := s.readWord s.pc; let op := ir.extractLsb' 12 4; let v := ir.extractLsb' 0 8
    (∃ bs, t.outStream = s.outStream ++ bs) ∧
    (op ≠ 0b1111 ∨ v ∉ [0x21#8, 0x22#8, 0x23#8] → t.outStream = s.outStream) ∧
    (op = 0b1111 ∧ (v = 0x20 ∨ v = 0x23) → ∃ b, s.inStream = b :: t.inStream ∧
      (v = 0x23 → t.outStream = s.outStream ++ [b])) ∧
    (¬(op = 0b1111 ∧ (v = 0x20 ∨ v = 0x23)) → t.inStream = s.inStream)

/-- Two memories in canonical form that read alike at every address are the same data, so equal memories are equal states. The canonical
form is the model's own (log 1); what it represents is 10_state.md R30. -/
def Obligations.MemoriesThatReadAlikeAreEqual : Prop :=
  ∀ m m' : Memory, m.wf → m'.wf → (∀ a, m.read a = m'.read a) → m = m'

/-! ### Load, placing and driving -/

/-- `load` refuses exactly an image that does not fit; else it gives pc = origin, no flag set, empty output, the given input, the image
at the origin, and `MEM_INIT` at every other address (70_reset_and_hazards.md R260, 10_state.md R40 to R43; the refusal and the default
`MEM_INIT` are the spec's decisions D7 and D6, log 2). That the memory is in canonical form is the model's own (log 1). -/
def Obligations.LoadBuildsInitialState : Prop :=
  ∀ (init : Word → Word) (origin : Word) (ws : List Word) (regs : Option (List Int)) (input : List Byte),
    (65536 < origin.toNat + ws.length → State.loadWith init origin ws regs input = .imageDoesNotFit) ∧
    (origin.toNat + ws.length ≤ 65536 → ∃ s, State.loadWith init origin ws regs input = .loaded s ∧
      s.pc = origin ∧ s.cond = 0 ∧ s.outStream = [] ∧ s.inStream = input ∧ s.mem.wf ∧
      (∀ (k : Nat) (w : Word), ws[k]? = some w → s.readWord (origin + BitVec.ofNat 16 k) = w) ∧
      (∀ a : Word, (∀ k < ws.length, a ≠ origin + BitVec.ofNat 16 k) → s.readWord a = init a)) ∧
    State.load origin ws regs input = State.loadWith (fun _ => 0) origin ws regs input

/-- `load`, under every `MEM_INIT`, sets every register from the first eight values, modulo 2^16, when at least eight are supplied, and
else sets all eight to zero (10_state.md R39; the modulus and the ninth value are the spec's decision D8). -/
def Obligations.LoadSetsRegisters : Prop :=
  ∀ (init : Word → Word) (origin : Word) (ws : List Word) (input : List Byte) (s : State),
    (∀ vs : List Int, State.loadWith init origin ws (some vs) input = .loaded s ∨ State.load origin ws (some vs) input = .loaded s →
      (8 ≤ vs.length → ∀ (r : Reg) (v : Int), vs[r.toNat]? = some v → ((s.reg r).toNat : Int) = v % 65536) ∧
      (vs.length < 8 → ∀ r, s.reg r = 0)) ∧
    (State.loadWith init origin ws none input = .loaded s ∨ State.load origin ws none input = .loaded s → ∀ r, s.reg r = 0)

/-- The model's reset state is the load of nothing at x3000 with no input: registers zero, pc at the origin, no flag, `MEM_INIT`
everywhere, nothing written (10_state.md R44). The origin and the empty input are the model's choices for two arguments of the load
(log 3, log 4), and that `MEM_INIT` is 0 is the default of the spec's decision D6 (log 2). -/
def Obligations.ResetIsLoadOfNothing : Prop :=
  State.load 0x3000 [] none [] = .loaded State.reset ∧
    (∀ r, State.reset.reg r = 0) ∧ State.reset.pc = 0x3000 ∧ State.reset.cond = 0 ∧ (∀ a, State.reset.readWord a = 0) ∧
    State.reset.inStream = [] ∧ State.reset.outStream = []

/-- A word placed for the next fetch is what the next step decodes and runs, and placing it changes no other word and nothing else of the
state. The placing is the model's (log 5). -/
def Obligations.PlacedWordRunsNext : Prop :=
  ∀ (s : State) (w : Nat), w < 65536 →
    decodeTableWord 16 w = some (decode (BitVec.ofNat 16 w)) ∧
    step (s.withFetchWord 16 w) =
      exec (decode (BitVec.ofNat 16 w)) { s.withFetchWord 16 w with pc := s.pc + 1 } ∧
    Stored s.pc (BitVec.ofNat 16 w) s (s.withFetchWord 16 w)

/-- The driver ends at the first state whose step returned x0000, whatever produced it: a fetched x0000 word, HALT, or any other step that
leaves the pc at x0000; a word x0000 is executed, so that run ends at the address after it (10_state.md R37, 70_reset_and_hazards.md
R270). The stop predicate is the spec's decision D24 (log 13). -/
def Obligations.DriverStopsAtZeroReturn : Prop :=
  (∀ (n : Nat) (s t : State), step s = .next t → (s.readWord s.pc = 0 ∨ t.pc = 0) → drive (n + 1) s = .ended t) ∧
    (∀ (n : Nat) (s t : State), step s = .next t → s.readWord s.pc ≠ 0 → t.pc ≠ 0 → drive (n + 1) s = drive n t) ∧
    (∀ (n : Nat) (s : State), s.readWord s.pc = 0 → drive (n + 1) s = .ended { s with pc := s.pc + 1 }) ∧
    ∀ (n : Nat) (s t : State), drive n s = .ended t → ∀ m, drive (n + m) s = .ended t

/-! ### The assembler: operands -/

/-- A register operand is `R` and one digit 0 to 7 and its field is that digit; every other token fails with InvalidRegister. The third
operand of ADD and AND is a register operand exactly when it is `R` and one or more decimal digits, so that R8 there is an
InvalidRegister and not a literal (40_encoder.md R115, R120; the grammar and the typed failure are the spec's decision D26). -/
def Obligations.RegisterOperandIsItsDigit : Prop :=
  (∀ d : Fin 8, Asm.regField ['R', Asm.decChar ⟨d.val, by omega⟩] = .ok (BitVec.ofFin d)) ∧
    (∀ t : Asm.Text, (∀ d : Fin 8, t ≠ ['R', Asm.decChar ⟨d.val, by omega⟩]) →
      Asm.regField t = .error (.recoverable .invalidRegister)) ∧
    ∀ t : Asm.Text, Asm.isRegToken t = true ↔ ∃ ds : List (Fin 10), ds ≠ [] ∧ t = 'R' :: ds.map Asm.decChar

/-- The literal parser reads exactly its forms: `#` with an optional sign and decimal digits, `X` with hexadecimal digits, never negative,
and bare decimal digits; the value is the number the digits stand for, and any other token has none (40_encoder.md R116; the grammar is
the spec's decision D27). -/
def Obligations.LiteralFormsAndValues : Prop :=
  ∀ (t : Asm.Text) (v : Int), Asm.literal t = some v ↔
    (∃ ds : List (Fin 10), ds ≠ [] ∧
      ((t = '#' :: ds.map Asm.decChar ∧ v = Asm.digitsValue ds) ∨
        (t = '#' :: '+' :: ds.map Asm.decChar ∧ v = Asm.digitsValue ds) ∨
        (t = '#' :: '-' :: ds.map Asm.decChar ∧ v = -(Asm.digitsValue ds : Int)) ∨
        (t = ds.map Asm.decChar ∧ v = Asm.digitsValue ds))) ∨
    ∃ hs : List (Fin 16), hs ≠ [] ∧ t = 'X' :: hs.map Asm.hexChar ∧ v = Asm.digitsValue hs

/-- A signed field of width N takes exactly the values -2^(N-1) to 2^(N-1)-1, keeps the value, and rejects every other one with
FieldOverflow instead of truncating it; a literal operand is the signed field of its value, and a trap vector takes exactly 0 to 255 and
keeps it; a token that is no literal is InvalidLiteral in both (00_scope.md R11, 40_encoder.md R117, R118, R119; the vector's range and
InvalidLiteral are the spec's decisions D28 and D27). -/
def Obligations.SignedFieldKeepsOrRejects : Prop :=
  (∀ (n : Nat) (v : Int), 0 < n →
    (-(2 ^ (n - 1) : Int) ≤ v ∧ v ≤ 2 ^ (n - 1) - 1 → ∃ f : BitVec n, Asm.signedField n v = .ok f ∧ f.toInt = v) ∧
    (¬(-(2 ^ (n - 1) : Int) ≤ v ∧ v ≤ 2 ^ (n - 1) - 1) → Asm.signedField n v = .error (.recoverable .fieldOverflow))) ∧
  (∀ t : Asm.Text, Asm.literal t = none →
    (∀ n : Nat, Asm.literalField n t = .error (.recoverable .invalidLiteral)) ∧
    Asm.vectField t = .error (.recoverable .invalidLiteral)) ∧
  ∀ (t : Asm.Text) (v : Int), Asm.literal t = some v →
    (∀ n : Nat, Asm.literalField n t = Asm.signedField n v) ∧
    (0 ≤ v ∧ v ≤ 255 → ∃ f : Vec8, Asm.vectField t = .ok f ∧ (f.toNat : Int) = v) ∧
    (¬(0 ≤ v ∧ v ≤ 255) → Asm.vectField t = .error (.recoverable .fieldOverflow))

/-- A label operand that is found is the signed field of its offset, target minus the address after the instruction in unbounded
integers, so it is accepted exactly when the offset fits and is FieldOverflow otherwise; one that is not found is UnresolvedLabel, unless
`PCREL_ACCEPTS_LITERAL` and the token is a literal, which then is the offset (the parameter is the spec's decision D25). And the
assembler and the core agree on labels: whatever PC-relative instruction of the mnemonic table the assembler accepts with a label
as its last operand, the address the core computes from the word, the pc after the fetch plus the sign-extended offset, is the label's
address (40_encoder.md R118, 30_encoding.md R87, R91). The offset arithmetic is the spec's decision D36. -/
def Obligations.LabelOperandReachesItsLabel : Prop :=
  (∀ (n : Nat) (acceptsLiteral : Bool) (sym : Asm.SymTab) (addr : Word) (t : Asm.Text),
    (∀ a, sym.find t = some a →
      Asm.labelField n acceptsLiteral sym addr t = Asm.signedField n ((a.toNat : Int) - ((addr.toNat : Int) + 1))) ∧
    (sym.find t = none → acceptsLiteral = false ∨ Asm.literal t = none →
      Asm.labelField n acceptsLiteral sym addr t = .error (.recoverable .unresolvedLabel)) ∧
    ∀ v, sym.find t = none → acceptsLiteral = true → Asm.literal t = some v →
      Asm.labelField n acceptsLiteral sym addr t = Asm.signedField n v) ∧
  ∀ (P : Asm.Params) (sym : Asm.SymTab) (addr a w : Word) (e : Asm.MnemonicEntry) (ops : List Asm.Text) (label : Asm.Text),
    P.mnemonics = Asm.mnemonicTable P.rtiWord → e ∈ Asm.mnemonicTable P.rtiWord → sym.find label = some a →
    Asm.encodeOperation P sym addr e.name (ops ++ [label]) = .ok w →
    (e.operands.getLast? = some .pcRel9 → addr + 1 + (w.extractLsb' 0 9).signExtend 16 = a) ∧
    (e.operands.getLast? = some .pcRel11 → addr + 1 + (w.extractLsb' 0 11).signExtend 16 = a)

/-! ### The assembler: mnemonics. Each equation gives the word, and through it the failures and their order. -/

/-- ADD, AND and NOT assemble to their formats from their operand fields, left to right (40_encoder.md R121, R122, R123). -/
def Obligations.AssembleOperate : Prop :=
  ∀ (sym : Asm.SymTab) (addr : Word) (t1 t2 t3 : Asm.Text),
    Asm.encodeOperation {} sym addr ['A', 'D', 'D'] [t1, t2, t3] = (do
      let d ← Asm.regField t1
      let a ← Asm.regField t2
      if Asm.isRegToken t3 then return 0b0001#4 ++ d ++ a ++ 0b0#1 ++ 0b00#2 ++ (← Asm.regField t3)
      else return 0b0001#4 ++ d ++ a ++ 0b1#1 ++ (← Asm.literalField 5 t3)) ∧
    Asm.encodeOperation {} sym addr ['A', 'N', 'D'] [t1, t2, t3] = (do
      let d ← Asm.regField t1
      let a ← Asm.regField t2
      if Asm.isRegToken t3 then return 0b0101#4 ++ d ++ a ++ 0b0#1 ++ 0b00#2 ++ (← Asm.regField t3)
      else return 0b0101#4 ++ d ++ a ++ 0b1#1 ++ (← Asm.literalField 5 t3)) ∧
    Asm.encodeOperation {} sym addr ['N', 'O', 'T'] [t1, t2] = (do
      return 0b1001#4 ++ (← Asm.regField t1) ++ (← Asm.regField t2) ++ 0b111111#6)

/-- The eight spellings of BR assemble to format BR with their masks, plain BR as BRNZP (40_encoder.md R124; the spellings are the spec's
general knowledge, log 10). -/
def Obligations.AssembleBranches : Prop :=
  ∀ (sym : Asm.SymTab) (addr : Word) (t : Asm.Text) (name : Asm.Text) (mask : BitVec 3),
    (name, mask) ∈ [(['B', 'R'], 0b111#3), (['B', 'R', 'N'], 0b100#3), (['B', 'R', 'Z'], 0b010#3), (['B', 'R', 'P'], 0b001#3),
      (['B', 'R', 'N', 'Z'], 0b110#3), (['B', 'R', 'N', 'P'], 0b101#3), (['B', 'R', 'Z', 'P'], 0b011#3),
      (['B', 'R', 'N', 'Z', 'P'], 0b111#3)] →
    Asm.encodeOperation {} sym addr name [t] = (do
      return 0b0000#4 ++ mask ++ (← Asm.labelField 9 false sym addr t))

/-- JMP, JSR, JSRR and TRAP assemble to their formats (40_encoder.md R125, R127, R128, R136). -/
def Obligations.AssembleJumpsCallsTraps : Prop :=
  ∀ (sym : Asm.SymTab) (addr : Word) (t : Asm.Text),
    Asm.encodeOperation {} sym addr ['J', 'M', 'P'] [t] = (do
      return 0b1100#4 ++ 0b000#3 ++ (← Asm.regField t) ++ 0b000000#6) ∧
    Asm.encodeOperation {} sym addr ['J', 'S', 'R'] [t] = (do
      return 0b0100#4 ++ 0b1#1 ++ (← Asm.labelField 11 false sym addr t)) ∧
    Asm.encodeOperation {} sym addr ['J', 'S', 'R', 'R'] [t] = (do
      return 0b0100#4 ++ 0b0#1 ++ 0b00#2 ++ (← Asm.regField t) ++ 0b000000#6) ∧
    Asm.encodeOperation {} sym addr ['T', 'R', 'A', 'P'] [t] = (do
      return 0b1111#4 ++ 0b0000#4 ++ (← Asm.vectField t))

/-- The loads and stores assemble to formats PCREL and BASE (40_encoder.md R129 to R135). -/
def Obligations.AssembleLoadsStores : Prop :=
  ∀ (sym : Asm.SymTab) (addr : Word) (t1 t2 t3 : Asm.Text),
    (∀ (name : Asm.Text) (op : BitVec 4),
      (name, op) ∈ [(['L', 'D'], 0b0010#4), (['L', 'D', 'I'], 0b1010#4), (['L', 'E', 'A'], 0b1110#4), (['S', 'T'], 0b0011#4),
        (['S', 'T', 'I'], 0b1011#4)] →
      Asm.encodeOperation {} sym addr name [t1, t2] = (do
        return op ++ (← Asm.regField t1) ++ (← Asm.labelField 9 false sym addr t2))) ∧
    Asm.encodeOperation {} sym addr ['L', 'D', 'R'] [t1, t2, t3] = (do
      return 0b0110#4 ++ (← Asm.regField t1) ++ (← Asm.regField t2) ++ (← Asm.literalField 6 t3)) ∧
    Asm.encodeOperation {} sym addr ['S', 'T', 'R'] [t1, t2, t3] = (do
      return 0b0111#4 ++ (← Asm.regField t1) ++ (← Asm.regField t2) ++ (← Asm.literalField 6 t3))

/-- The mnemonics without operands: RET is xC1C0, RTI is `RTI_WORD`, and the trap aliases are xF020 to xF025, each rejecting any operand
as a fatal arity mismatch (40_encoder.md R126, R137, R138; RET's word, the aliases and the default `RTI_WORD` are the spec's general
knowledge and decisions D12 and D16, log 8, log 10). -/
def Obligations.AssembleWithoutOperands : Prop :=
  (∀ (rti : Word) (sym : Asm.SymTab) (addr : Word),
    Asm.encodeOperation { rtiWord := rti } sym addr ['R', 'T', 'I'] [] = .ok rti ∧
    Asm.encodeOperation { rtiWord := rti } sym addr ['R', 'E', 'T'] [] = .ok 0xC1C0) ∧
  Asm.encodeOperation {} [] 0x3000 ['R', 'T', 'I'] [] = .ok 0x0000 ∧
  ∀ (sym : Asm.SymTab) (addr : Word) (ops : List Asm.Text) (name : Asm.Text) (w : Word),
    (name, w) ∈ [(['G', 'E', 'T', 'C'], 0xF020#16), (['O', 'U', 'T'], 0xF021#16), (['P', 'U', 'T', 'S'], 0xF022#16),
      (['I', 'N'], 0xF023#16), (['P', 'U', 'T', 'S', 'P'], 0xF024#16), (['H', 'A', 'L', 'T'], 0xF025#16)] →
    Asm.encodeOperation {} sym addr name ops = if ops = [] then .ok w else .error .fatalArityMismatch

/-- A record whose operand count is not its mnemonic's is a fatal arity mismatch, whatever its operands are, and no other record of a
table mnemonic is one: a failing operand is a recoverable failure (40_encoder.md R113, R143, R144). -/
def Obligations.ArityMismatchIsTheFatalFailure : Prop :=
  ∀ (P : Asm.Params) (sym : Asm.SymTab) (addr : Word) (name : Asm.Text) (ops : List Asm.Text) (e : Asm.MnemonicEntry),
    P.entry name = some e →
    (Asm.encodeOperation P sym addr name ops = .error .fatalArityMismatch ↔ ops.length ≠ e.operands.length) ∧
    Asm.encodeOperation P sym addr name ops ≠ .error .outsideContract

/-! ### The assembler: passes -/

/-- The normalizer cuts a line at its first `;`, makes each separator exactly one space, trims whitespace at the two ends and nothing
else, and keeps every other character in order, upper-cased; the separators are comma, tab, carriage return, form feed and vertical
tab. So a normalized line holds no comment, separator or lower-case letter, neither begins nor ends with a space, and normalizing it
again changes nothing (40_encoder.md R100; one space per separator is the spec's decision D35). Which characters are whitespace, and
upper-casing beyond ASCII, are the model's choice (log 15). -/
def Obligations.NormalizerReachesNormalForm : Prop :=
  (∀ c : Char, Asm.isSeparator c = true ↔ c ∈ [',', '\t', '\r', '\x0c', '\x0b']) ∧
  ∀ l : Asm.Text,
    (∃ kept comment lead body trail : Asm.Text,
      l = kept ++ comment ∧ (∀ c ∈ kept, c ≠ ';') ∧ (comment = [] ∨ comment.head? = some ';') ∧
      kept.map (fun c => if Asm.isSeparator c then ' ' else c) = lead ++ body ++ trail ∧
      (∀ c ∈ lead ++ trail, c.isWhitespace = true) ∧
      (∀ c, body.head? = some c ∨ body.getLast? = some c → c.isWhitespace = false) ∧
      Asm.normalize l = body.map Char.toUpper) ∧
    (∀ c ∈ Asm.normalize l, c ≠ ';' ∧ Asm.isSeparator c = false ∧ c.isLower = false) ∧
    (Asm.normalize l).head? ≠ some ' ' ∧ (Asm.normalize l).getLast? ≠ some ' ' ∧
    Asm.normalize (Asm.normalize l) = Asm.normalize l

/-- The directives render as they should: `.FILL` its value modulo 2^16, `.BLKW` that many zero words, `.STRINGZ` one word per character
and a zero word after them (40_encoder.md R139, R140, R141; values below -32768 are the spec's decision D42, characters beyond ASCII
log 15). -/
def Obligations.DirectivesRender : Prop :=
  ∀ (text : Asm.Text) (operands : List Asm.Text),
    (∀ v, Asm.tokens text = ['.', 'F', 'I', 'L', 'L'] :: operands → Asm.fillValue operands = some v →
      ∃ w : Word, Asm.renderPseudo text = .ok [w] ∧ (w.toNat : Int) = v % 65536) ∧
    (∀ n, Asm.tokens text = ['.', 'B', 'L', 'K', 'W'] :: operands → Asm.blkwCount operands = some n →
      Asm.renderPseudo text = .ok (List.replicate n 0)) ∧
    (∀ chars, Asm.tokens text = ['.', 'S', 'T', 'R', 'I', 'N', 'G', 'Z'] :: operands → Asm.quoted text = some chars →
      (∀ c ∈ chars, c.toNat < 256) →
      ∃ ws : List Word, Asm.renderPseudo text = .ok (ws ++ [0]) ∧ ws.map BitVec.toNat = chars.map Char.toNat)

/-- Pass 2 gives the words of every record in program order when all succeed, and else exactly the failure of the first record that
fails, with no words (40_encoder.md R143, R145, 10_state.md R35; the order is the spec's decision D29). -/
def Obligations.Pass2StopsAtFirstFailure : Prop :=
  ∀ (P : Asm.Params) (sym : Asm.SymTab) (rs : List Asm.Record),
    (∀ wss : List (List Word), rs.map (Asm.encodeRecord P sym) = wss.map Except.ok → Asm.pass2 P sym rs = .ok wss.flatten) ∧
    ∀ f, Asm.pass2 P sym rs = .error f ↔
      ∃ before r after, rs = before ++ r :: after ∧ Asm.encodeRecord P sym r = .error f ∧
        ∀ q ∈ before, ∃ ws, Asm.encodeRecord P sym q = .ok ws

/-- Pass 1 hands Pass 2 only records the encoder has a result for: no assembly, under any parameters, ends outside the contract
(40_encoder.md R107 to R110, R143, R144; log 14). -/
def Obligations.AssemblyStaysInContract : Prop :=
  ∀ (P : Asm.Params) (source : List Asm.Text), Asm.assemble P source ≠ .error .outsideContract

/-- At the defaults an assembled image fits below x10000, so its load is never refused, and loading it at its origin puts the words of
every record at the record's own address (40_encoder.md R111, R107 to R110, C3, 70_reset_and_hazards.md R260; that Pass 1's addresses match
the image is the spec's decision D32). -/
def Obligations.AssembledRecordsLoadAtTheirAddresses : Prop :=
  ∀ (source : List Asm.Text) (image : Asm.Image) (origin : Word) (regs : Option (List Int)) (input : List Byte),
    Asm.assemble {} source = .ok image → image.origin = some origin →
    ∃ (s : State) (p : Asm.Pass1), State.load origin image.words regs input = .loaded s ∧
      Asm.pass1 {} (source.map Asm.normalize) = .ok p ∧
      ∀ r ∈ p.records, ∃ ws, Asm.encodeRecord {} p.symbols r = .ok ws ∧
        ∀ (k : Nat) (w : Word), ws[k]? = some w → s.readWord (r.addr + BitVec.ofNat 16 k) = w
end

