-- ==== Sys2Proof/Laws/Decode.lean ====
section
/-! SUPPORT. Where the fields of a packed word lie (30_encoding.md R74): one lemma per field of each format, for proofs over `encode`
and `decode`. -/

namespace Sys2Proof

/-! ### A field of a concatenation -/

/-- A field within the low part. -/
theorem field_append_low {n m : Nat} (a : BitVec n) (b : BitVec m) (k len : Nat) (h : k + len ≤ m) :
    (a ++ b).extractLsb' k len = b.extractLsb' k len := by
  ext i hi
  have : k + i < m := by omega
  simp [BitVec.getLsbD_append, this]

/-- A field above the low part. -/
theorem field_append_high {n m : Nat} (a : BitVec n) (b : BitVec m) (k len : Nat) :
    (a ++ b).extractLsb' (m + k) len = a.extractLsb' k len := by
  ext i hi
  have h1 : ¬ m + k + i < m := by omega
  have h2 : m + k + i - m = k + i := by omega
  simp [BitVec.getLsbD_append, h1, h2]

/-- The whole of a value. -/
theorem field_whole {n : Nat} (a : BitVec n) : a.extractLsb' 0 n = a := by
  ext i hi
  simp

/-! ### `packRegs` -/

section
variable (op : BitVec 4) (hi lo : BitVec 3) (low : BitVec 6)

@[simp] theorem opcodeField_packRegs : opcodeField (packRegs op hi lo low) = op :=
  ((field_append_high (op ++ hi ++ lo) low 6 4).trans
    ((field_append_high (op ++ hi) lo 3 4).trans (field_append_high op hi 0 4))).trans (field_whole op)

@[simp] theorem drField_packRegs : drField (packRegs op hi lo low) = hi :=
  ((field_append_high (op ++ hi ++ lo) low 3 3).trans
    ((field_append_high (op ++ hi) lo 0 3).trans (field_append_low op hi 0 3 (by omega)))).trans (field_whole hi)

@[simp] theorem sr1Field_packRegs : sr1Field (packRegs op hi lo low) = lo :=
  ((field_append_high (op ++ hi ++ lo) low 0 3).trans (field_append_low (op ++ hi) lo 0 3 (by omega))).trans (field_whole lo)

@[simp] theorem off6Field_packRegs : off6Field (packRegs op hi lo low) = low :=
  (field_append_low (op ++ hi ++ lo) low 0 6 (by omega)).trans (field_whole low)

/-- The low bits of a word of this format. -/
theorem field_packRegs (k len : Nat) (h : k + len ≤ 6) :
    (packRegs op hi lo low).extractLsb' k len = low.extractLsb' k len :=
  field_append_low (op ++ hi ++ lo) low k len h

@[simp] theorem sr2Field_packRegs (sr2 : Reg) : sr2Field (packRegs op hi lo (0b000#3 ++ sr2)) = sr2 :=
  ((field_packRegs op hi lo _ 0 3 (by omega)).trans (field_append_low (0b000#3) sr2 0 3 (by omega))).trans (field_whole sr2)

@[simp] theorem imm5Field_packRegs (imm5 : Imm5) : imm5Field (packRegs op hi lo (0b1#1 ++ imm5)) = imm5 :=
  ((field_packRegs op hi lo _ 0 5 (by omega)).trans (field_append_low (0b1#1) imm5 0 5 (by omega))).trans (field_whole imm5)

theorem immBit_eq_field (ir : Word) : immBit ir = (ir.extractLsb' 5 1).getLsbD 0 := by
  simp [immBit]

@[simp] theorem immBit_packRegs_reg (sr2 : Reg) : immBit (packRegs op hi lo (0b000#3 ++ sr2)) = false := by
  rw [immBit_eq_field, field_packRegs op hi lo _ 5 1 (by omega)]
  exact congrArg (BitVec.getLsbD · 0) (field_append_high (0b000#3) sr2 2 1)

@[simp] theorem immBit_packRegs_imm (imm5 : Imm5) : immBit (packRegs op hi lo (0b1#1 ++ imm5)) = true := by
  rw [immBit_eq_field, field_packRegs op hi lo _ 5 1 (by omega)]
  exact congrArg (BitVec.getLsbD · 0) (field_append_high (0b1#1) imm5 0 1)

theorem jsrBit_eq_field (ir : Word) : jsrBit ir = (ir.extractLsb' 11 1).getLsbD 0 := by
  simp [jsrBit]

/-- Bit 11 is the top bit of the upper register field. -/
theorem jsrBit_packRegs : jsrBit (packRegs op hi lo low) = hi.getLsbD 2 := by
  rw [jsrBit_eq_field]
  refine (congrArg (BitVec.getLsbD · 0) ((field_append_high (op ++ hi ++ lo) low 5 1).trans
    ((field_append_high (op ++ hi) lo 2 1).trans (field_append_low op hi 2 1 (by omega))))).trans ?_
  simp

end

/-! ### Formats with their ignored bits written out (R75, R81, R84 to R86) -/

/-- Format OPR or OPI as R75 writes it. -/
theorem word_of_opr (op : BitVec 4) (dr sr1 : Reg) (mode : BitVec 1) (dots : BitVec 2) (sr2 : Reg) :
    (op ++ dr ++ sr1 ++ mode ++ dots ++ sr2 : Word) = packRegs op dr sr1 (mode ++ dots ++ sr2) := by
  have h1 := BitVec.append_assoc (x₁ := op ++ dr ++ sr1 ++ mode) (x₂ := dots) (x₃ := sr2)
  have h2 := BitVec.append_assoc (x₁ := op ++ dr ++ sr1) (x₂ := mode) (x₃ := dots ++ sr2)
  have h3 := BitVec.append_assoc (x₁ := mode) (x₂ := dots) (x₃ := sr2)
  simp only [BitVec.cast_eq] at h1 h2 h3
  unfold packRegs
  rw [h3]
  exact h1.trans h2

/-- Format OPI as R76 writes it. -/
theorem word_of_opi (op : BitVec 4) (dr sr1 : Reg) (mode : BitVec 1) (imm5 : Imm5) :
    (op ++ dr ++ sr1 ++ mode ++ imm5 : Word) = packRegs op dr sr1 (mode ++ imm5) := by
  have h1 := BitVec.append_assoc (x₁ := op ++ dr ++ sr1) (x₂ := mode) (x₃ := imm5)
  simp only [BitVec.cast_eq] at h1
  exact h1

/-- Format JSRR as R81 writes it. -/
theorem word_of_jsrr (op : BitVec 4) (mode : BitVec 1) (dots : BitVec 2) (baseR : Reg) (low : BitVec 6) :
    (op ++ mode ++ dots ++ baseR ++ low : Word) = packRegs op (mode ++ dots) baseR low := by
  have h1 := BitVec.append_assoc (x₁ := op) (x₂ := mode) (x₃ := dots)
  simp only [BitVec.cast_eq] at h1
  exact congrArg (fun x : BitVec 7 => (x ++ baseR ++ low : BitVec 16)) h1

/-- SR2 of format OPR, whatever the ignored bits. -/
theorem sr2Field_of_opr (op : BitVec 4) (dr sr1 : Reg) (mode : BitVec 1) (dots : BitVec 2) (sr2 : Reg) :
    sr2Field (packRegs op dr sr1 (mode ++ dots ++ sr2)) = sr2 :=
  ((field_packRegs op dr sr1 _ 0 3 (by omega)).trans (field_append_low (mode ++ dots) sr2 0 3 (by omega))).trans (field_whole sr2)

/-- The mode bit of format OPR, whatever the ignored bits. -/
theorem immBit_of_opr (op : BitVec 4) (dr sr1 : Reg) (mode : BitVec 1) (dots : BitVec 2) (sr2 : Reg) :
    immBit (packRegs op dr sr1 (mode ++ dots ++ sr2)) = mode.getLsbD 0 := by
  rw [immBit_eq_field, field_packRegs op dr sr1 _ 5 1 (by omega)]
  exact congrArg (BitVec.getLsbD · 0)
    (((field_append_high (mode ++ dots) sr2 2 1).trans (field_append_high mode dots 0 1)).trans (field_whole mode))

/-- The mode bit of format JSRR, whatever the ignored bits. -/
theorem jsrBit_of_jsrr (op : BitVec 4) (mode : BitVec 1) (dots : BitVec 2) (baseR : Reg) (low : BitVec 6) :
    jsrBit (packRegs op (mode ++ dots) baseR low) = mode.getLsbD 0 := by
  rw [jsrBit_packRegs, BitVec.getLsbD_append]
  simp

/-- The opcode of a word of format TRAP, whatever the ignored bits. -/
theorem opcodeField_of_trap (op dots : BitVec 4) (vect8 : Vec8) : opcodeField (op ++ dots ++ vect8) = op :=
  ((field_append_high (op ++ dots) vect8 4 4).trans (field_append_high op dots 0 4)).trans (field_whole op)

/-- The vector of a word of format TRAP, whatever the ignored bits. -/
theorem vect8Field_of_trap (op dots : BitVec 4) (vect8 : Vec8) : vect8Field (op ++ dots ++ vect8) = vect8 :=
  (field_append_low (op ++ dots) vect8 0 8 (by omega)).trans (field_whole vect8)

/-- The opcode of a word of which only the opcode counts. -/
theorem opcodeField_of_opcode (op : BitVec 4) (dots : BitVec 12) : opcodeField (op ++ dots) = op :=
  (field_append_high op dots 0 4).trans (field_whole op)

/-! ### `packOff9` -/

section
variable (op : BitVec 4) (hi : BitVec 3) (off9 : Off9)

@[simp] theorem opcodeField_packOff9 : opcodeField (packOff9 op hi off9) = op :=
  ((field_append_high (op ++ hi) off9 3 4).trans (field_append_high op hi 0 4)).trans (field_whole op)

@[simp] theorem drField_packOff9 : drField (packOff9 op hi off9) = hi :=
  ((field_append_high (op ++ hi) off9 0 3).trans (field_append_low op hi 0 3 (by omega))).trans (field_whole hi)

@[simp] theorem nzpField_packOff9 : nzpField (packOff9 op hi off9) = hi := drField_packOff9 op hi off9

@[simp] theorem off9Field_packOff9 : off9Field (packOff9 op hi off9) = off9 :=
  (field_append_low (op ++ hi) off9 0 9 (by omega)).trans (field_whole off9)

end

/-! ### `packOff11`, `packVect8` and `packOpcode` -/

@[simp] theorem opcodeField_packOff11 (op : BitVec 4) (mode : BitVec 1) (off11 : Off11) :
    opcodeField (packOff11 op mode off11) = op :=
  ((field_append_high (op ++ mode) off11 1 4).trans (field_append_high op mode 0 4)).trans (field_whole op)

@[simp] theorem off11Field_packOff11 (op : BitVec 4) (mode : BitVec 1) (off11 : Off11) :
    off11Field (packOff11 op mode off11) = off11 :=
  (field_append_low (op ++ mode) off11 0 11 (by omega)).trans (field_whole off11)

@[simp] theorem jsrBit_packOff11 (op : BitVec 4) (mode : BitVec 1) (off11 : Off11) :
    jsrBit (packOff11 op mode off11) = mode.getLsbD 0 := by
  rw [jsrBit_eq_field]
  exact congrArg (BitVec.getLsbD · 0)
    (((field_append_high (op ++ mode) off11 0 1).trans (field_append_low op mode 0 1 (by omega))).trans (field_whole mode))

@[simp] theorem opcodeField_packVect8 (op : BitVec 4) (vect8 : Vec8) : opcodeField (packVect8 op vect8) = op :=
  ((field_append_high (op ++ 0b0000#4) vect8 4 4).trans (field_append_high op (0b0000#4) 0 4)).trans (field_whole op)

@[simp] theorem vect8Field_packVect8 (op : BitVec 4) (vect8 : Vec8) : vect8Field (packVect8 op vect8) = vect8 :=
  (field_append_low (op ++ 0b0000#4) vect8 0 8 (by omega)).trans (field_whole vect8)

@[simp] theorem opcodeField_packOpcode (op : BitVec 4) : opcodeField (packOpcode op) = op :=
  (field_append_high op (0b000000000000#12) 0 4).trans (field_whole op)

end Sys2Proof
end

