-- ==== Sys2Proof/Laws/State.lean ====
section
/-! SUPPORT. One lemma per field per update of State: what each named update leaves alone, and what it writes. -/

namespace Sys2Proof.Machine.State

/-! ### Fields under `setReg` -/

@[simp] theorem setReg_pc (s : State) (r : Reg) (v : Word) : (s.setReg r v).pc = s.pc := rfl
@[simp] theorem setReg_cond (s : State) (r : Reg) (v : Word) : (s.setReg r v).cond = s.cond := rfl
@[simp] theorem setReg_mem (s : State) (r : Reg) (v : Word) : (s.setReg r v).mem = s.mem := rfl
@[simp] theorem setReg_inStream (s : State) (r : Reg) (v : Word) : (s.setReg r v).inStream = s.inStream := rfl
@[simp] theorem setReg_outStream (s : State) (r : Reg) (v : Word) : (s.setReg r v).outStream = s.outStream := rfl

/-- A register reads back what was last written to it; no other register changes (10_state.md R20). -/
theorem reg_setReg (s : State) (r q : Reg) (v : Word) :
    (s.setReg r v).reg q = if q = r then v else s.reg q := by
  unfold reg setReg
  rw [Vector.getElem_set]
  by_cases h : q = r
  · simp [h]
  · have : r.toNat ≠ q.toNat := fun e => h (BitVec.eq_of_toNat_eq e.symm)
    simp [h, this]

@[simp] theorem reg_setReg_same (s : State) (r : Reg) (v : Word) : (s.setReg r v).reg r = v := by
  rw [reg_setReg, if_pos rfl]

theorem reg_setReg_other (s : State) {r q : Reg} (v : Word) (h : q ≠ r) : (s.setReg r v).reg q = s.reg q := by
  rw [reg_setReg, if_neg h]

/-! ### Fields under `setPc` -/

@[simp] theorem setPc_regs (s : State) (t : Word) : (s.setPc t).regs = s.regs := rfl
@[simp] theorem setPc_reg (s : State) (t : Word) (r : Reg) : (s.setPc t).reg r = s.reg r := rfl
@[simp] theorem setPc_pc (s : State) (t : Word) : (s.setPc t).pc = t := rfl
@[simp] theorem setPc_cond (s : State) (t : Word) : (s.setPc t).cond = s.cond := rfl
@[simp] theorem setPc_mem (s : State) (t : Word) : (s.setPc t).mem = s.mem := rfl
@[simp] theorem setPc_inStream (s : State) (t : Word) : (s.setPc t).inStream = s.inStream := rfl
@[simp] theorem setPc_outStream (s : State) (t : Word) : (s.setPc t).outStream = s.outStream := rfl

/-! ### Fields under `advance` -/

@[simp] theorem advance_regs (s : State) : s.advance.regs = s.regs := rfl
@[simp] theorem advance_reg (s : State) (r : Reg) : s.advance.reg r = s.reg r := rfl
@[simp] theorem advance_pc (s : State) : s.advance.pc = s.pc + 1 := rfl
@[simp] theorem advance_cond (s : State) : s.advance.cond = s.cond := rfl
@[simp] theorem advance_mem (s : State) : s.advance.mem = s.mem := rfl
@[simp] theorem advance_inStream (s : State) : s.advance.inStream = s.inStream := rfl
@[simp] theorem advance_outStream (s : State) : s.advance.outStream = s.outStream := rfl

/-! ### Fields under `setcc` -/

@[simp] theorem setcc_regs (s : State) (v : Word) : (s.setcc v).regs = s.regs := rfl
@[simp] theorem setcc_reg (s : State) (v : Word) (r : Reg) : (s.setcc v).reg r = s.reg r := rfl
@[simp] theorem setcc_pc (s : State) (v : Word) : (s.setcc v).pc = s.pc := rfl
@[simp] theorem setcc_cond (s : State) (v : Word) : (s.setcc v).cond = condOf v := rfl
@[simp] theorem setcc_mem (s : State) (v : Word) : (s.setcc v).mem = s.mem := rfl
@[simp] theorem setcc_inStream (s : State) (v : Word) : (s.setcc v).inStream = s.inStream := rfl
@[simp] theorem setcc_outStream (s : State) (v : Word) : (s.setcc v).outStream = s.outStream := rfl

/-! ### Fields under `writeResult` -/

@[simp] theorem writeResult_pc (s : State) (r : Reg) (v : Word) : (s.writeResult r v).pc = s.pc := rfl
@[simp] theorem writeResult_cond (s : State) (r : Reg) (v : Word) : (s.writeResult r v).cond = condOf v := rfl
@[simp] theorem writeResult_mem (s : State) (r : Reg) (v : Word) : (s.writeResult r v).mem = s.mem := rfl
@[simp] theorem writeResult_inStream (s : State) (r : Reg) (v : Word) : (s.writeResult r v).inStream = s.inStream := rfl
@[simp] theorem writeResult_outStream (s : State) (r : Reg) (v : Word) : (s.writeResult r v).outStream = s.outStream := rfl

@[simp] theorem reg_writeResult_same (s : State) (r : Reg) (v : Word) : (s.writeResult r v).reg r = v :=
  reg_setReg_same s r v

theorem reg_writeResult_other (s : State) {r q : Reg} (v : Word) (h : q ≠ r) : (s.writeResult r v).reg q = s.reg q :=
  reg_setReg_other s v h

/-! ### Fields under `writeWord` -/

@[simp] theorem writeWord_regs (s : State) (a v : Word) : (s.writeWord a v).regs = s.regs := rfl
@[simp] theorem writeWord_reg (s : State) (a v : Word) (r : Reg) : (s.writeWord a v).reg r = s.reg r := rfl
@[simp] theorem writeWord_pc (s : State) (a v : Word) : (s.writeWord a v).pc = s.pc := rfl
@[simp] theorem writeWord_cond (s : State) (a v : Word) : (s.writeWord a v).cond = s.cond := rfl
@[simp] theorem writeWord_mem (s : State) (a v : Word) : (s.writeWord a v).mem = s.mem.write a v := rfl
@[simp] theorem writeWord_inStream (s : State) (a v : Word) : (s.writeWord a v).inStream = s.inStream := rfl
@[simp] theorem writeWord_outStream (s : State) (a v : Word) : (s.writeWord a v).outStream = s.outStream := rfl

/-! ### Fields under the console updates -/

@[simp] theorem consoleWrite_regs (s : State) (b : Byte) : (s.consoleWrite b).regs = s.regs := rfl
@[simp] theorem consoleWrite_reg (s : State) (b : Byte) (r : Reg) : (s.consoleWrite b).reg r = s.reg r := rfl
@[simp] theorem consoleWrite_pc (s : State) (b : Byte) : (s.consoleWrite b).pc = s.pc := rfl
@[simp] theorem consoleWrite_cond (s : State) (b : Byte) : (s.consoleWrite b).cond = s.cond := rfl
@[simp] theorem consoleWrite_mem (s : State) (b : Byte) : (s.consoleWrite b).mem = s.mem := rfl
@[simp] theorem consoleWrite_inStream (s : State) (b : Byte) : (s.consoleWrite b).inStream = s.inStream := rfl
@[simp] theorem consoleWrite_outStream (s : State) (b : Byte) : (s.consoleWrite b).outStream = s.outStream ++ [b] := rfl

@[simp] theorem consoleWriteAll_regs (s : State) (bs : List Byte) : (s.consoleWriteAll bs).regs = s.regs := rfl
@[simp] theorem consoleWriteAll_reg (s : State) (bs : List Byte) (r : Reg) : (s.consoleWriteAll bs).reg r = s.reg r := rfl
@[simp] theorem consoleWriteAll_pc (s : State) (bs : List Byte) : (s.consoleWriteAll bs).pc = s.pc := rfl
@[simp] theorem consoleWriteAll_cond (s : State) (bs : List Byte) : (s.consoleWriteAll bs).cond = s.cond := rfl
@[simp] theorem consoleWriteAll_mem (s : State) (bs : List Byte) : (s.consoleWriteAll bs).mem = s.mem := rfl
@[simp] theorem consoleWriteAll_inStream (s : State) (bs : List Byte) : (s.consoleWriteAll bs).inStream = s.inStream := rfl
@[simp] theorem consoleWriteAll_outStream (s : State) (bs : List Byte) :
    (s.consoleWriteAll bs).outStream = s.outStream ++ bs := rfl

theorem consoleWrite_eq_all (s : State) (b : Byte) : s.consoleWrite b = s.consoleWriteAll [b] := rfl

/-- `ConsoleRead` without a byte (41_sequencer.md R159). -/
theorem consoleRead_nil {s : State} (h : s.inStream = []) : s.consoleRead = none := by
  simp [consoleRead, h]

/-- `ConsoleRead` takes the next byte and leaves the rest (70_reset_and_hazards.md R267). -/
theorem consoleRead_cons {s : State} {b : Byte} {rest : List Byte} (h : s.inStream = b :: rest) :
    s.consoleRead = some (b, { s with inStream := rest }) := by
  simp [consoleRead, h]

end Sys2Proof.Machine.State
end

