-- ==== Sys2Proof/Laws/Exec.lean ====
section
/-! SUPPORT. What the shared operations and a handler can do, said once: the inversion lemma of `exec` (41_sequencer.md R156, R157)
and its outcomes (60_exceptions.md R240, R254). -/

namespace Sys2Proof.Machine

/-! ### The services -/

/-- GETC with a byte of input (45_trap.md R222). -/
theorem serviceGetc_cons {s : State} {b : Byte} {rest : List Byte} (h : s.inStream = b :: rest) :
    serviceGetc s = .next (State.setReg { s with inStream := rest } 0 (b.setWidth 16)) := by
  simp [serviceGetc, State.consoleRead_cons h]

/-- GETC without input is stuck (41_sequencer.md R159). -/
theorem serviceGetc_nil {s : State} (h : s.inStream = []) : serviceGetc s = .fault .awaitingInput := by
  simp [serviceGetc, State.consoleRead_nil h]

/-- IN with a byte of input (45_trap.md R225). -/
theorem serviceIn_cons {s : State} {b : Byte} {rest : List Byte} (h : s.inStream = b :: rest) :
    serviceIn s = .next ((State.consoleWrite { s with inStream := rest } b).setReg 0 (b.setWidth 16)) := by
  simp [serviceIn, State.consoleRead_cons h]

/-- IN without input is stuck (41_sequencer.md R159). -/
theorem serviceIn_nil {s : State} (h : s.inStream = []) : serviceIn s = .fault .awaitingInput := by
  simp [serviceIn, State.consoleRead_nil h]

/-- A branch writes at most the pc (43_control.md R180). -/
theorem branch_eq_setPc (mask : BitVec 3) (off9 : Off9) (s : State) : ∃ a, branch mask off9 s = s.setPc a := by
  unfold branch
  split
  · exact ⟨_, rfl⟩
  · exact ⟨s.pc, rfl⟩

/-- A call links R7 and sets the pc (43_control.md R185). -/
theorem callThrough_eq (linkFirst : Bool) (baseR : Reg) (s : State) :
    ∃ a, callThrough linkFirst baseR s = (s.setReg 7 s.pc).setPc a := by
  unfold callThrough
  dsimp only
  split <;> exact ⟨_, rfl⟩

/-! ### The shapes of a handler's effect -/

/-- Everything a handler can do to the state it is given. -/
inductive Effect (s : State) : State → Prop
  /-- A result and its flags: ADD, AND, NOT and the loads. -/
  | result (dr : Reg) (v : Word) : Effect s (s.writeResult dr v)
  /-- A new pc: BR, JMP, RET, HALT. -/
  | jump (a : Word) : Effect s (s.setPc a)
  /-- A link in R7 and a new pc: JSR, JSRR. -/
  | call (a : Word) : Effect s ((s.setReg 7 s.pc).setPc a)
  /-- One word of memory: ST, STI, STR. -/
  | store (a v : Word) : Effect s (s.writeWord a v)
  /-- An input byte into R0: GETC. -/
  | input (b : Byte) (rest : List Byte) (h : s.inStream = b :: rest) :
      Effect s (State.setReg { s with inStream := rest } 0 (b.setWidth 16))
  /-- An input byte echoed and put into R0: IN. -/
  | echo (b : Byte) (rest : List Byte) (h : s.inStream = b :: rest) :
      Effect s ((State.consoleWrite { s with inStream := rest } b).setReg 0 (b.setWidth 16))
  /-- Output bytes: OUT, PUTS. -/
  | output (bs : List Byte) : Effect s (s.consoleWriteAll bs)
  /-- Nothing: RTI, the reserved opcode, an unrecognized vector. -/
  | nothing : Effect s s

theorem serviceGetc_effect {s t : State} (h : serviceGetc s = .next t) : Effect s t := by
  rcases hin : s.inStream with _ | ⟨b, rest⟩
  · simp [serviceGetc_nil hin] at h
  · rw [serviceGetc_cons hin] at h
    cases h
    exact .input b rest hin

theorem serviceIn_effect {s t : State} (h : serviceIn s = .next t) : Effect s t := by
  rcases hin : s.inStream with _ | ⟨b, rest⟩
  · simp [serviceIn_nil hin] at h
  · rw [serviceIn_cons hin] at h
    cases h
    exact .echo b rest hin

theorem takeTrap_effect {v : Vec8} {s t : State} (h : takeTrap v s = .next t) : Effect s t := by
  unfold takeTrap at h
  split at h
  · exact serviceGetc_effect h
  · cases h; exact .output _
  · cases h; exact .output _
  · exact serviceIn_effect h
  · cases h; exact .jump _
  · cases h; exact .nothing

/-- The inversion lemma: a handler that completes has one of the effects above. -/
theorem exec_effect {i : Instr} {s t : State} (h : exec i s = .next t) : Effect s t := by
  cases i
  case addReg => cases h; exact .result _ _
  case addImm => cases h; exact .result _ _
  case andReg => cases h; exact .result _ _
  case andImm => cases h; exact .result _ _
  case not => cases h; exact .result _ _
  case br off9 => cases h; obtain ⟨a, e⟩ := branch_eq_setPc 0b111 off9 s; exact e ▸ .jump a
  case brn off9 => cases h; obtain ⟨a, e⟩ := branch_eq_setPc 0b100 off9 s; exact e ▸ .jump a
  case brz off9 => cases h; obtain ⟨a, e⟩ := branch_eq_setPc 0b010 off9 s; exact e ▸ .jump a
  case brp off9 => cases h; obtain ⟨a, e⟩ := branch_eq_setPc 0b001 off9 s; exact e ▸ .jump a
  case brnz off9 => cases h; obtain ⟨a, e⟩ := branch_eq_setPc 0b110 off9 s; exact e ▸ .jump a
  case brnp off9 => cases h; obtain ⟨a, e⟩ := branch_eq_setPc 0b101 off9 s; exact e ▸ .jump a
  case brzp off9 => cases h; obtain ⟨a, e⟩ := branch_eq_setPc 0b011 off9 s; exact e ▸ .jump a
  case brnzp off9 => cases h; obtain ⟨a, e⟩ := branch_eq_setPc 0b111 off9 s; exact e ▸ .jump a
  case brNone off9 => cases h; obtain ⟨a, e⟩ := branch_eq_setPc 0b000 off9 s; exact e ▸ .jump a
  case jmp => cases h; exact .jump _
  case ret => cases h; exact .jump _
  case jsr => cases h; exact .call _
  case jsrr baseR => cases h; obtain ⟨a, e⟩ := callThrough_eq Config.jsrrLinkFirst baseR s; exact e ▸ .call a
  case ld => cases h; exact .result _ _
  case ldi => cases h; exact .result _ _
  case ldr => cases h; exact .result _ _
  case lea => cases h; exact .result _ _
  case st => cases h; exact .store _ _
  case sti => cases h; exact .store _ _
  case str => cases h; exact .store _ _
  case rti => cases h; exact .nothing
  case reserved => cases h; exact .nothing
  case trap => exact takeTrap_effect h
  case getc => exact serviceGetc_effect h
  case out => cases h; exact .output _
  case puts => cases h; exact .output _
  case inp => exact serviceIn_effect h
  case putsp => cases h; exact .nothing
  case halt => cases h; exact .jump _

/-! ### The step under either value of `JSRR_LINK_FIRST` (00_scope.md R7) -/

/-- At the default, `execUnder` is `exec`. -/
@[simp] theorem execUnder_default (i : Instr) (s : State) : execUnder Config.jsrrLinkFirst i s = exec i s := by
  cases i <;> rfl

/-- At the default, `stepUnder` is `step`. -/
@[simp] theorem stepUnder_default (s : State) : stepUnder Config.jsrrLinkFirst s = step s := execUnder_default _ _

/-- The two orders differ for JSRR R7 only (43_control.md R185). -/
theorem callThrough_order {baseR : Reg} (h : baseR ≠ 7) (s : State) : callThrough false baseR s = callThrough true baseR s := by
  simp only [callThrough, Bool.false_eq_true, if_false, if_true, State.reg_setReg_other _ _ h]

/-- Unless the word is JSRR R7, both values give the same step. -/
theorem stepUnder_eq_step (linkFirst : Bool) (s : State) (h : decode s.fetch ≠ .jsrr 7) : stepUnder linkFirst s = step s := by
  rw [← stepUnder_default]
  unfold stepUnder
  generalize decode s.fetch = i at h
  cases i <;> try rfl
  case jsrr baseR =>
    have hb : baseR ≠ 7 := fun e => h (e ▸ rfl)
    cases linkFirst
    · exact congrArg Host.Outcome.next (callThrough_order hb _)
    · rfl

/-- What a report says, given what the step does (41_sequencer.md R150). -/
theorem stepReport_default (s : State) :
    stepReport s = match step s with
      | .next t => .next { after := t, stepRet := stepReturn s.fetch t, status := stepStatus s.fetch }
      | .fault f => .fault f
      | .refused r => .refused r := by
  cases h : step s <;> simp [stepReport, h]

/-- A step that completes has an effect on the state after the fetch (41_sequencer.md R150). -/
theorem step_effect {s t : State} (h : step s = .next t) : Effect s.advance t := exec_effect h

end Sys2Proof.Machine
end

