-- ==== Sys2Proof/Laws/Memory.lean ====
section
/-! SUPPORT. The laws of the memory operations: a read after a write, and that every operation keeps the canonical form
(20_memory.md R55; log 1). -/

namespace Sys2Proof.Machine

theorem toNat_inj {a b : Word} : a.toNat = b.toNat ↔ a = b :=
  ⟨BitVec.eq_of_toNat_eq, fun h => h ▸ rfl⟩

/-! ### Reading -/

@[simp] theorem Memory.read_nil (a : Word) : Memory.read [] a = Config.memInit a := rfl

theorem Memory.read_cons (k : Nat) (v : Word) (m : Memory) (a : Word) :
    Memory.read ((k, v) :: m) a = if k = a.toNat then v else m.read a := rfl

/-- An address no cell lists reads as `MEM_INIT`. -/
theorem Memory.read_unlisted (m : Memory) (a : Word) (h : ∀ c ∈ m, c.1 ≠ a.toNat) : m.read a = Config.memInit a := by
  induction m with
  | nil => rfl
  | cons c m ih =>
    obtain ⟨k, v⟩ := c
    have hk : k ≠ a.toNat := h (k, v) (by simp)
    rw [Memory.read_cons, if_neg hk, ih fun c hc => h c (by simp [hc])]

/-- Reading skips the cells of other addresses. -/
theorem Memory.read_filter_other (m : Memory) (n : Nat) (a : Word) (h : n ≠ a.toNat) :
    Memory.read (List.filter (fun c => c.1 != n) m) a = m.read a := by
  induction m with
  | nil => rfl
  | cons c m ih =>
    obtain ⟨k, v⟩ := c
    rw [List.filter_cons, Memory.read_cons, ← ih]
    by_cases hk : k = n
    · have hn : k ≠ a.toNat := fun e => h (hk ▸ e)
      simp [hk, h]
    · simp [hk, Memory.read_cons]

theorem Memory.read_insertCell (k : Nat) (v : Word) (m : Memory) (a : Word) (h : ∀ c ∈ m, c.1 ≠ k) :
    (Memory.insertCell k v m).read a = if k = a.toNat then v else m.read a := by
  induction m with
  | nil => rfl
  | cons c m ih =>
    obtain ⟨j, w⟩ := c
    unfold Memory.insertCell
    split
    · rw [Memory.read_cons]
    · rw [Memory.read_cons, Memory.read_cons, ih fun c hc => h c (by simp [hc])]
      have hj : j ≠ k := h (j, w) (by simp)
      by_cases h1 : j = a.toNat
      · rw [if_pos h1, if_pos h1, if_neg fun e => hj (h1.trans e.symm)]
      · rw [if_neg h1, if_neg h1]

/-- A read returns the whole word last written at that address, and no other address changes (20_memory.md R55). -/
theorem Memory.read_write (m : Memory) (a v b : Word) : (m.write a v).read b = if b = a then v else m.read b := by
  have hne : ∀ c ∈ List.filter (fun c => c.1 != a.toNat) m, c.1 ≠ a.toNat := fun c hc => by
    simpa using (List.mem_filter.mp hc).2
  unfold Memory.write
  by_cases hb : b = a
  · subst hb
    by_cases hv : v = Config.memInit b
    · simp only [if_true, hv, Memory.read_unlisted _ _ hne]
    · simp only [if_neg hv, if_true, Memory.read_insertCell _ _ _ _ hne]
  · have hn : a.toNat ≠ b.toNat := fun e => hb (BitVec.eq_of_toNat_eq e.symm)
    by_cases hv : v = Config.memInit a
    · simp only [if_pos hv, if_neg hb, Memory.read_filter_other _ _ _ hn]
    · simp only [if_neg hv, if_neg hb, Memory.read_insertCell _ _ _ _ hne, if_neg hn, Memory.read_filter_other _ _ _ hn]

@[simp] theorem Memory.read_write_same (m : Memory) (a v : Word) : (m.write a v).read a = v := by
  rw [Memory.read_write, if_pos rfl]

theorem Memory.read_write_other (m : Memory) {a b : Word} (v : Word) (h : b ≠ a) : (m.write a v).read b = m.read b := by
  rw [Memory.read_write, if_neg h]

theorem State.readWord_writeWord (s : State) (a v b : Word) :
    (s.writeWord a v).readWord b = if b = a then v else s.readWord b :=
  Memory.read_write s.mem a v b

/-! ### The canonical form -/

theorem Memory.wf_nil : Memory.wf [] := by simp [Memory.wf]

theorem Memory.wf_filter {m : Memory} (h : m.wf) (p : Nat × Word → Bool) : Memory.wf (List.filter p m) :=
  ⟨h.1.sublist List.filter_sublist, fun c hc => h.2 c (List.mem_filter.mp hc).1⟩

theorem Memory.mem_insertCell {k : Nat} {v : Word} {m : Memory} {c : Nat × Word} :
    c ∈ Memory.insertCell k v m ↔ c = (k, v) ∨ c ∈ m := by
  induction m with
  | nil => simp [Memory.insertCell]
  | cons d m ih =>
    obtain ⟨j, w⟩ := d
    unfold Memory.insertCell
    split
    · simp
    · rw [List.mem_cons, ih, List.mem_cons]
      tauto

theorem Memory.pairwise_insertCell {k : Nat} {v : Word} {m : Memory} (h : m.Pairwise (fun c d => c.1 < d.1))
    (hk : ∀ c ∈ m, c.1 ≠ k) : (Memory.insertCell k v m).Pairwise (fun c d => c.1 < d.1) := by
  induction m with
  | nil => simp [Memory.insertCell]
  | cons d m ih =>
    obtain ⟨j, w⟩ := d
    rw [List.pairwise_cons] at h
    unfold Memory.insertCell
    split
    · rename_i hlt
      refine List.pairwise_cons.mpr ⟨fun c hc => ?_, List.pairwise_cons.mpr h⟩
      rcases List.mem_cons.mp hc with rfl | hc
      · exact hlt
      · exact lt_trans hlt (h.1 c hc)
    · rename_i hge
      refine List.pairwise_cons.mpr ⟨fun c hc => ?_, ih h.2 fun c hc => hk c (by simp [hc])⟩
      rcases Memory.mem_insertCell.mp hc with rfl | hc
      · have := hk (j, w) (by simp)
        exact lt_of_le_of_ne (Nat.le_of_not_lt hge) this
      · exact h.1 c hc

/-- A write keeps the canonical form. -/
theorem Memory.write_wf {m : Memory} (h : m.wf) (a v : Word) : (m.write a v).wf := by
  have hf := Memory.wf_filter h (fun c => c.1 != a.toNat)
  have hne : ∀ c ∈ List.filter (fun c => c.1 != a.toNat) m, c.1 ≠ a.toNat := fun c hc => by
    simpa using (List.mem_filter.mp hc).2
  unfold Memory.write
  by_cases hv : v = Config.memInit a
  · simpa only [if_pos hv] using hf
  · simp only [if_neg hv]
    refine ⟨Memory.pairwise_insertCell hf.1 hne, fun c hc => ?_⟩
    rcases Memory.mem_insertCell.mp hc with rfl | hc
    · exact ⟨a.isLt, by simpa using hv⟩
    · exact hf.2 c hc

/-- Writing an image keeps the canonical form. -/
theorem Memory.writeImage_wf {m : Memory} (h : m.wf) (a : Word) (ws : List Word) : (m.writeImage a ws).wf := by
  induction ws generalizing m a with
  | nil => exact h
  | cons w ws ih => exact ih (Memory.write_wf h a w) (a + 1)

/-- The memory of a `MEM_INIT` is in canonical form. -/
theorem Memory.ofInit_wf (init : Word → Word) : (Memory.ofInit init).wf := by
  unfold Memory.ofInit
  refine ⟨List.Pairwise.filterMap _ ?_ List.pairwise_lt_range, fun c hc => ?_⟩
  · intro j k hjk c hc d hd
    split at hc
    · simp at hc
    · split at hd
      · simp at hd
      · cases hc; cases hd; exact hjk
  · obtain ⟨k, hk, hc⟩ := List.mem_filterMap.mp hc
    split at hc
    · simp at hc
    · rename_i hne
      cases hc
      exact ⟨List.mem_range.mp hk, hne⟩

end Sys2Proof.Machine
end

