-- ==== Sys2Proof/Laws/PerInstr.lean ====
section
/-! SUPPORT. One fact about every instruction as syntax, per constructor: the opcode of its word is the one the map of
30_encoding.md R72 gives its class. -/

namespace Sys2Proof.Laws.Opcode

/-- The opcode of an instruction's class (30_encoding.md R72). -/
def opcodeOf : Instr → BitVec 4
  | .br _ | .brn _ | .brz _ | .brp _ | .brnz _ | .brnp _ | .brzp _ | .brnzp _ | .brNone _ => 0b0000
  | .addReg _ _ _ | .addImm _ _ _ => 0b0001
  | .ld _ _ => 0b0010
  | .st _ _ => 0b0011
  | .jsr _ | .jsrr _ => 0b0100
  | .andReg _ _ _ | .andImm _ _ _ => 0b0101
  | .ldr _ _ _ => 0b0110
  | .str _ _ _ => 0b0111
  | .rti => 0b1000
  | .not _ _ => 0b1001
  | .ldi _ _ => 0b1010
  | .sti _ _ => 0b1011
  | .jmp _ | .ret => 0b1100
  | .reserved => 0b1101
  | .lea _ _ => 0b1110
  | .trap _ | .getc | .out | .puts | .inp | .putsp | .halt => 0b1111

/-- The word of the instruction carries the opcode of its class. -/
def Statement (i : Instr) : Prop := opcodeField (encode i) = opcodeOf i

theorem addReg (dr sr1 sr2 : Reg) : Statement (.addReg dr sr1 sr2) := opcodeField_packRegs _ _ _ _
theorem addImm (dr sr1 : Reg) (imm5 : Imm5) : Statement (.addImm dr sr1 imm5) := opcodeField_packRegs _ _ _ _
theorem andReg (dr sr1 sr2 : Reg) : Statement (.andReg dr sr1 sr2) := opcodeField_packRegs _ _ _ _
theorem andImm (dr sr1 : Reg) (imm5 : Imm5) : Statement (.andImm dr sr1 imm5) := opcodeField_packRegs _ _ _ _
theorem not (dr sr : Reg) : Statement (.not dr sr) := opcodeField_packRegs _ _ _ _
theorem br (off9 : Off9) : Statement (.br off9) := opcodeField_packOff9 _ _ _
theorem brn (off9 : Off9) : Statement (.brn off9) := opcodeField_packOff9 _ _ _
theorem brz (off9 : Off9) : Statement (.brz off9) := opcodeField_packOff9 _ _ _
theorem brp (off9 : Off9) : Statement (.brp off9) := opcodeField_packOff9 _ _ _
theorem brnz (off9 : Off9) : Statement (.brnz off9) := opcodeField_packOff9 _ _ _
theorem brnp (off9 : Off9) : Statement (.brnp off9) := opcodeField_packOff9 _ _ _
theorem brzp (off9 : Off9) : Statement (.brzp off9) := opcodeField_packOff9 _ _ _
theorem brnzp (off9 : Off9) : Statement (.brnzp off9) := opcodeField_packOff9 _ _ _
theorem brNone (off9 : Off9) : Statement (.brNone off9) := opcodeField_packOff9 _ _ _
theorem jmp (baseR : Reg) : Statement (.jmp baseR) := opcodeField_packRegs _ _ _ _
theorem ret : Statement (.ret) := opcodeField_packRegs _ _ _ _
theorem jsr (off11 : Off11) : Statement (.jsr off11) := opcodeField_packOff11 _ _ _
theorem jsrr (baseR : Reg) : Statement (.jsrr baseR) := opcodeField_packRegs _ _ _ _
theorem ld (dr : Reg) (off9 : Off9) : Statement (.ld dr off9) := opcodeField_packOff9 _ _ _
theorem ldi (dr : Reg) (off9 : Off9) : Statement (.ldi dr off9) := opcodeField_packOff9 _ _ _
theorem ldr (dr baseR : Reg) (off6 : Off6) : Statement (.ldr dr baseR off6) := opcodeField_packRegs _ _ _ _
theorem lea (dr : Reg) (off9 : Off9) : Statement (.lea dr off9) := opcodeField_packOff9 _ _ _
theorem st (sr : Reg) (off9 : Off9) : Statement (.st sr off9) := opcodeField_packOff9 _ _ _
theorem sti (sr : Reg) (off9 : Off9) : Statement (.sti sr off9) := opcodeField_packOff9 _ _ _
theorem str (sr baseR : Reg) (off6 : Off6) : Statement (.str sr baseR off6) := opcodeField_packRegs _ _ _ _
theorem rti : Statement (.rti) := opcodeField_packOpcode _
theorem reserved : Statement (.reserved) := opcodeField_packOpcode _
theorem trap (vect8 : Vec8) : Statement (.trap vect8) := opcodeField_packVect8 _ _
theorem getc : Statement (.getc) := opcodeField_packVect8 _ _
theorem out : Statement (.out) := opcodeField_packVect8 _ _
theorem puts : Statement (.puts) := opcodeField_packVect8 _ _
theorem inp : Statement (.inp) := opcodeField_packVect8 _ _
theorem putsp : Statement (.putsp) := opcodeField_packVect8 _ _
theorem halt : Statement (.halt) := opcodeField_packVect8 _ _

end Sys2Proof.Laws.Opcode
end

