-- ==== Sys2Proof/Tests/Slice0.lean ====
section
/-! SUPPORT. The model's own tests. Expected results are from spec/95_test_vectors.md and the examples of the rules named; the last part
gives, for every statement with hypotheses, a state and operands that meet them together. -/

namespace Sys2Proof.Tests

open Sys2Proof.Machine

/-! ### Helpers -/

/-- The next state, if the outcome is one. -/
def nextOf (o : Host.Outcome State Fault Refusal) : Option State :=
  match o with
  | .next t => some t
  | .fault _ => none
  | .refused _ => none

theorem next_of_nextOf {o : Host.Outcome State Fault Refusal} {t : State} (h : nextOf o = some t) : o = .next t := by
  cases o with
  | next u => cases h; rfl
  | fault f => cases h
  | refused r => cases h

/-- The reset state with a word at the pc (x3000), some registers and flags: the start state of a core vector of
95_test_vectors.md. -/
def core (w : Nat) (regs : List (Reg × Word)) (cond : BitVec 3) : State :=
  regs.foldl (fun s c => s.setReg c.1 c.2) { State.reset.withFetchWord 16 w with cond := cond }

/-- A state with words of memory. -/
def withMem (s : State) (cells : List (Word × Word)) : State := cells.foldl (fun s c => s.writeWord c.1 c.2) s

/-- What a vector of 95_test_vectors.md checks of one step: a register, the pc and the flags. -/
def sees (s : State) (r : Reg) (v pc : Word) (cond : BitVec 3) : Bool :=
  match step s with
  | .next t => t.reg r == v && t.pc == pc && t.cond == cond
  | .fault _ => false
  | .refused _ => false

/-- What a vector checks of one step's memory: one word, and that the flags stay. -/
def seesMem (s : State) (a v : Word) : Bool :=
  match step s with
  | .next t => t.readWord a == v && t.pc == s.pc + 1 && t.cond == s.cond
  | .fault _ => false
  | .refused _ => false

/-- What a vector checks of one step's output. -/
def seesOut (s : State) (bytes : List Byte) (r0 pc : Word) : Bool :=
  match step s with
  | .next t => t.outStream == bytes && t.reg 0 == r0 && t.pc == pc && t.cond == s.cond && t.reg 7 == s.reg 7
  | .fault _ => false
  | .refused _ => false

/-- What a vector checks of a step's report. -/
def reports (s : State) (ret : Word) (status : StepStatus) : Bool :=
  match stepReport s with
  | .next r => r.stepRet == ret && r.status == status
  | .fault _ => false
  | .refused _ => false

/-! ### WellFormed: an ill-formed term for each check -/

theorem test_wellFormed_refuses_br : (Instr.br 5).WellFormed = false := by decide
theorem test_wellFormed_refuses_jmp_r7 : (Instr.jmp 7).WellFormed = false ∧ (Instr.jmp 6).WellFormed = true := by decide
theorem test_wellFormed_refuses_trap_x20 : (Instr.trap 0x20).WellFormed = false ∧ (Instr.trap 0x1F).WellFormed = true := by decide
theorem test_wellFormed_refuses_trap_x25 : (Instr.trap 0x25).WellFormed = false ∧ (Instr.trap 0x26).WellFormed = true := by decide
theorem test_wellFormed_refuses_trap_x21_to_x24 :
    (Instr.trap 0x21).WellFormed = false ∧ (Instr.trap 0x22).WellFormed = false ∧ (Instr.trap 0x23).WellFormed = false ∧
      (Instr.trap 0x24).WellFormed = false := by decide

/-! ### Decoding: every constructor, its word written out from the formats of 30_encoding.md -/

theorem test_decode_addReg : decode 0b0001_001_010_0_00_011 = .addReg 1 2 3 := by decide
theorem test_decode_addReg_ignores_bits : decode 0b0001_000_000_0_11_001 = .addReg 0 0 1 := by decide
theorem test_decode_addImm : decode 0b0001_000_000_1_00001 = .addImm 0 0 1 := by decide
theorem test_decode_andReg : decode 0b0101_101_110_0_00_111 = .andReg 5 6 7 := by decide
theorem test_decode_andImm : decode 0b0101_011_100_1_10000 = .andImm 3 4 0b10000 := by decide
theorem test_decode_not : decode 0b1001_001_010_111111 = .not 1 2 := by decide
theorem test_decode_not_ignores_bits : decode 0b1001_001_010_000000 = .not 1 2 := by decide
theorem test_decode_brn : decode 0b0000_100_100000000 = .brn 0b100000000 := by decide
theorem test_decode_brz : decode 0b0000_010_111111111 = .brz 0b111111111 := by decide
theorem test_decode_brp : decode 0b0000_001_111111110 = .brp 0b111111110 := by decide
theorem test_decode_brnz : decode 0b0000_110_011111111 = .brnz 0b011111111 := by decide
theorem test_decode_brnp : decode 0b0000_101_011111111 = .brnp 0b011111111 := by decide
theorem test_decode_brzp : decode 0b0000_011_011111111 = .brzp 0b011111111 := by decide
theorem test_decode_brnzp : decode 0b0000_111_111111110 = .brnzp 0b111111110 := by decide
theorem test_br_shares_the_word_of_brnzp : encode (.br 0b111111110) = 0b0000_111_111111110 := by decide
theorem test_decode_brNone : decode 0x0000 = .brNone 0 := by decide
theorem test_decode_jmp : decode 0b1100_000_011_000000 = .jmp 3 := by decide
theorem test_decode_ret : decode 0b1100_000_111_000000 = .ret ∧ decode 0b1100_111_111_111111 = .ret := by decide
theorem test_decode_jsr : decode 0b0100_1_01111111111 = .jsr 0b01111111111 := by decide
theorem test_decode_jsrr : decode 0b0100_0_00_101_000000 = .jsrr 5 ∧ decode 0b0100_0_11_101_111111 = .jsrr 5 := by decide
theorem test_decode_ld : decode 0b0010_001_000000100 = .ld 1 4 := by decide
theorem test_decode_ldi : decode 0b1010_010_111111111 = .ldi 2 0b111111111 := by decide
theorem test_decode_ldr : decode 0b0110_001_110_100000 = .ldr 1 6 0b100000 := by decide
theorem test_decode_lea : decode 0b1110_000_011111111 = .lea 0 0b011111111 := by decide
theorem test_decode_st : decode 0b0011_011_100000000 = .st 3 0b100000000 := by decide
theorem test_decode_sti : decode 0b1011_100_111101111 = .sti 4 0b111101111 := by decide
theorem test_decode_str : decode 0b0111_010_110_011111 = .str 2 6 0b011111 := by decide
theorem test_decode_rti : decode 0x8000 = .rti ∧ decode 0x8FFF = .rti := by decide
theorem test_decode_reserved : decode 0xD123 = .reserved ∧ decode 0xDFFF = .reserved := by decide
theorem test_decode_trap : decode 0xF000 = .trap 0 ∧ decode 0xF0FF = .trap 0xFF ∧ decode 0xF01F = .trap 0x1F := by decide
theorem test_decode_services :
    decode 0xF020 = .getc ∧ decode 0xF021 = .out ∧ decode 0xF022 = .puts ∧ decode 0xF023 = .inp ∧ decode 0xF024 = .putsp ∧
      decode 0xFF25 = .halt := by decide
theorem test_decodeTableWord : decodeTableWord 16 0xE0FF = some (.lea 0 255) ∧ decodeTableWord 17 0 = none := by decide

/-! ### Operate (95_test_vectors.md L2.6) -/

theorem test_add_wraps_to_negative : sees (core 0x1021 [(0, 0x7FFF)] 0) 0 0x8000 0x3001 4 = true := by decide
theorem test_add_wraps_to_zero : sees (core 0x1021 [(0, 0xFFFF)] 0) 0 0x0000 0x3001 2 = true := by decide
theorem test_addReg_sources_first : sees (core 0x1000 [(0, 0x4000)] 0) 0 0x8000 0x3001 4 = true := by decide
theorem test_addReg_negatives : sees (core 0x1401 [(0, 0x8000), (1, 0xFFFF)] 0) 2 0x7FFF 0x3001 1 = true := by decide
theorem test_andImm_masks : sees (core 0x5730 [(4, 0xFFFF)] 0) 3 0xFFF0 0x3001 4 = true := by decide
theorem test_andReg_zero : sees (core 0x5042 [(1, 0xAAAA), (2, 0x5555)] 0) 0 0x0000 0x3001 2 = true := by decide
theorem test_not_positive : sees (core 0x973F [(4, 0x8000)] 0) 3 0x7FFF 0x3001 1 = true := by decide
theorem test_not_ignores_low_bits : sees (core 0x9280 [(2, 0x1234)] 0) 1 0xEDCB 0x3001 4 = true := by decide

/-! ### Control transfer (L2.7, L2.8) -/

theorem test_brnzp_not_taken_at_reset : sees (core 0x0FFE [] 0) 0 0 0x3001 0 = true := by decide
theorem test_brn_taken : sees (core 0x09FE [] 4) 0 0 0x2FFF 4 = true := by decide
theorem test_brz_taken : sees (core 0x05FE [] 2) 0 0 0x2FFF 2 = true := by decide
theorem test_brp_taken : sees (core 0x03FE [] 1) 0 0 0x2FFF 1 = true := by decide
theorem test_brnz_not_taken_on_p : sees (core 0x0DFE [] 1) 0 0 0x3001 1 = true := by decide
theorem test_brnp_not_taken_on_z : sees (core 0x0BFE [] 2) 0 0 0x3001 2 = true := by decide
theorem test_brzp_not_taken_on_n : sees (core 0x07FE [] 4) 0 0 0x3001 4 = true := by decide
theorem test_brNone_never_taken : sees (core 0x01FE [] 1) 0 0 0x3001 1 = true := by decide
theorem test_brnzp_wraps : sees ({ core 0 [] 1 with pc := 0xFFFF }.withFetchWord 16 0x0FFE) 0 0 0xFFFE 1 = true := by decide
theorem test_br_runs_as_brnzp : nextOf (exec (.br 2) (core 0 [] 1)) = some { core 0 [] 1 with pc := 0x3002 } := by decide
theorem test_jmp : sees (core 0xC0C0 [(3, 0x4000)] 1) 3 0x4000 0x4000 1 = true := by decide
theorem test_ret : sees (core 0xCFFF [(7, 0x1234)] 1) 7 0x1234 0x1234 1 = true := by decide
theorem test_jsr_forward : sees (core 0x4BFF [] 1) 7 0x3001 0x3400 1 = true := by decide
theorem test_jsr_wraps : sees ({ core 0 [] 1 with pc := 0xFFFE }.withFetchWord 16 0x4802) 7 0xFFFF 0x0001 1 = true := by decide
theorem test_jsrr : sees (core 0x4140 [(5, 0x5000)] 1) 7 0x3001 0x5000 1 = true := by decide
theorem test_jsrr_r7_links_first : sees (core 0x41C0 [(7, 0x5000)] 1) 7 0x3001 0x3001 1 = true := by decide
theorem test_rti_no_op : sees (core 0x8FFF [] 1) 0 0 0x3001 1 = true ∧ reports (core 0x8000 [] 1) 0x3001 .ok = true := by decide
theorem test_reserved_status : reports (core 0xD123 [] 1) 0x3001 .unrecognizedOpcode = true := by decide

/-! ### Loads and stores (L2.9) -/

theorem test_ld_negative : sees (withMem (core 0x2204 [] 0) [(0x3005, 0x8001)]) 1 0x8001 0x3001 4 = true := by decide
theorem test_ldi_flags_of_final_word :
    sees (withMem (core 0xA404 [(2, 0x7777)] 1) [(0x3005, 0x4000)]) 2 0x0000 0x3001 2 = true := by decide
theorem test_ldr_destination_is_base : sees (withMem (core 0x6240 [(1, 0x4000)] 0) [(0x4000, 0x9999)]) 1 0x9999 0x3001 4 = true := by
  decide
theorem test_ldr_wraps : sees (withMem (core 0x605F [(1, 0xFFF0)] 0) [(0x000F, 0x0042)]) 0 0x0042 0x3001 1 = true := by decide
theorem test_lea_negative_address : sees ({ core 0 [] 0 with pc := 0x7F00 }.withFetchWord 16 0xE0FF) 0 0x8000 0x7F01 4 = true := by
  decide
theorem test_lea_zero_address : sees ({ core 0 [] 0 with pc := 0xFF00 }.withFetchWord 16 0xE0FF) 0 0x0000 0xFF01 2 = true := by
  decide
theorem test_st : seesMem (core 0x3700 [(3, 0xBEEF)] 1) 0x2F01 0xBEEF = true := by decide
theorem test_sti_overwrites_its_pointer :
    seesMem (({ core 0 [(4, 0x1111)] 1 with pc := 0x3010 }.withFetchWord 16 0xB9EF).writeWord 0x3000 0x3000) 0x3000 0x1111 = true := by
  decide
theorem test_str : seesMem (core 0x759F [(6, 0x4000), (2, 0x1234)] 1) 0x401F 0x1234 = true := by decide
theorem test_write_of_zero_unlists : (State.reset.writeWord 0x4000 5).writeWord 0x4000 0 = State.reset := by decide

/-! ### Traps (L2.10) -/

theorem test_getc : seesOut { core 0xF020 [(0, 0xABCD)] 1 with inStream := [0x61] } [] 0x0061 0x3001 = true := by decide
theorem test_out_low_byte : seesOut (core 0xF021 [(0, 0x1241)] 1) [0x41] 0x1241 0x3001 = true := by decide
theorem test_puts_stops_above_127 :
    seesOut (withMem (core 0xF022 [(0, 0x4000)] 1) [(0x4000, 0x0048), (0x4001, 0x00C8), (0x4002, 0x0069)]) [0x48] 0x4000 0x3001
      = true := by decide
theorem test_puts_wraps :
    seesOut (withMem (core 0xF022 [(0, 0xFFFF)] 1) [(0xFFFF, 0x0041), (0x0000, 0x0042)]) [0x41, 0x42] 0xFFFF 0x3001 = true := by
  decide
theorem test_in_echoes : seesOut { core 0xF023 [] 1 with inStream := [0x37] } [0x37] 0x0037 0x3001 = true := by decide
theorem test_halt : seesOut (core 0xFF25 [(0, 5)] 1) [] 5 0x0000 = true ∧ reports (core 0xF025 [] 1) 0 .ok = true := by decide
theorem test_putsp_unrecognized : reports (core 0xF024 [] 1) 0x3001 .unrecognizedTrap = true := by decide
theorem test_trap_unrecognized : reports (core 0xF0FF [] 1) 0x3001 .unrecognizedTrap = true := by decide
theorem test_zero_word_ends_run : reports (core 0x0000 [] 1) 0 .ok = true ∧ sees (core 0x0000 [] 1) 0 0 0x3001 1 = true := by decide

/-! ### Load and reset (L2.11) -/

theorem test_load_seven_values :
    State.load 0x3000 [] (some [1, 2, 3, 4, 5, 6, 7]) [] = .loaded State.reset := by decide
theorem test_load_modulo :
    loadRegs (some [-1, 0, 0, 0, 0, 0, 0, 65536, 9]) = #v[0xFFFF, 0, 0, 0, 0, 0, 0, 0] := by decide
theorem test_load_does_not_fit :
    State.load 0xFFFF [0x1021, 0x1021] none [] = .imageDoesNotFit ∧
      State.load 0xFFFF [0x1021] none [] ≠ .imageDoesNotFit := by decide

/-! ### The assembler (L1, L2.1 to L2.5) -/

theorem test_assemble_loop :
    Asm.assemble {} [".ORIG x3000".toList, "LOOP ADD R0,R0,#1".toList, " br loop ; back".toList, ".END".toList] =
      .ok { origin := some 0x3000, words := [0x1021, 0x0FFE] } := by decide
theorem test_assemble_stringz_labels :
    Asm.assemble {} [".ORIG x3000".toList, "S .STRINGZ \"ab\"".toList, "NEXT LEA R0,S".toList, "LEA R1,NEXT".toList] =
      .ok { origin := some 0x3000, words := [0x0041, 0x0042, 0x0000, 0xE1FC, 0xE3FE] } := by decide
theorem test_assemble_fill_modulo :
    Asm.assemble {} [".ORIG x3000".toList, ".FILL #-65536".toList, ".FILL #-1".toList, ".BLKW 2".toList] =
      .ok { origin := some 0x3000, words := [0x0000, 0xFFFF, 0x0000, 0x0000] } := by decide
theorem test_assemble_address_overflow :
    Asm.assemble {} [".ORIG xFFFF".toList, "ADD R0,R0,#1".toList, "L .END".toList] = .error (.recoverable .addressOverflow) := by
  decide
theorem test_assemble_first_failure :
    Asm.assemble {} [".ORIG x3000".toList, "ADD R0,R0,#99".toList, "ADD R0".toList] = .error (.recoverable .fieldOverflow) := by
  decide
theorem test_assemble_label_before_origin :
    Asm.assemble {} ["LOOP .ORIG x3000".toList] = .error (.recoverable .programBeforeOrigin) := by decide
/-- 40_encoder.md R121, the example, and R120: R8 is a register operand, and an invalid one. -/
theorem test_encode_register_mode :
    Asm.encodeOperation {} [] 0x3000 ['A', 'D', 'D'] [['R', '1'], ['R', '2'], ['R', '3']] = .ok 0x1283 ∧
    Asm.encodeOperation {} [] 0x3000 ['A', 'N', 'D'] [['R', '1'], ['R', '2'], ['R', '8']] =
      .error (.recoverable .invalidRegister) := by decide
/-- 40_encoder.md R136, the examples. -/
theorem test_encode_trap_vector :
    Asm.encodeOperation {} [] 0x3000 ['T', 'R', 'A', 'P'] [['#', '2', '5', '5']] = .ok 0xF0FF ∧
    Asm.encodeOperation {} [] 0x3000 ['T', 'R', 'A', 'P'] [['#', '2', '5', '6']] = .error (.recoverable .fieldOverflow) := by decide
theorem test_encode_arity_before_operands :
    Asm.encodeOperation {} [] 0x3000 ['A', 'D', 'D'] [['R', '9'], ['R', '0']] = .error .fatalArityMismatch := by decide
theorem test_encode_hex_never_negative :
    Asm.encodeOperation {} [] 0x3000 ['A', 'D', 'D'] [['R', '0'], ['R', '0'], ['X', '1', '0']] =
      .error (.recoverable .fieldOverflow) := by decide
theorem test_encode_pcrel_literal_parameter :
    Asm.labelField 9 false [] 0x3000 ['5'] = .error (.recoverable .unresolvedLabel) ∧
      Asm.labelField 9 true [] 0x3000 ['5'] = .ok 5 := by decide
theorem test_hexText : Asm.hexText 0x000A = ['0', '0', '0', 'A'] := by decide
theorem test_binaryText : Asm.binaryText 0x000A = "0000000000001010".toList := by decide

/-- R185, last corner case: with `JSRR_LINK_FIRST = false`, `JSRR R7` jumps to the old R7. -/
theorem test_jsrr_r7_link_last :
    ((nextOf (stepUnder false (core 0x41C0 [(7, 0x4000)] 1))).map fun t => (t.pc, t.reg 7)) = some (0x4000, 0x3001) := by decide

/-! ### Witnesses: for every statement with hypotheses, data that meets them together -/

/-- A state whose next step reads a word and completes at a given state. -/
theorem step_of (s t : State) (h : nextOf (step s) = some t) : step s = .next t := next_of_nextOf h

/-- `DecodeInvertsEncode`, `IgnoredBitsCarryNothing`. -/
theorem witness_decode :
    (Instr.trap 0x26).WellFormed = true ∧ (Instr.jmp 6).WellFormed = true ∧ canonicalWord 0xFF25 = canonicalWord 0xF025 := by decide

/-- `StepFetchesAdvancesExecutes`. -/
theorem witness_step : decode ((core 0x1021 [] 0).readWord (core 0x1021 [] 0).pc) = .addImm 0 0 1 ∧
    (nextOf (exec (.addImm 0 0 1) { core 0x1021 [] 0 with pc := (core 0x1021 [] 0).pc + 1 })).isSome = true := by decide

/-- `BranchTestsMaskedFlags`: the last and the first row of the list. -/
theorem witness_branch_rows :
    (Instr.br 5, 0b111#3) ∈ [(Instr.brNone 5, 0b000#3), (.brp 5, 0b001#3), (.brz 5, 0b010#3), (.brzp 5, 0b011#3), (.brn 5, 0b100#3),
      (.brnp 5, 0b101#3), (.brnz 5, 0b110#3), (.brnzp 5, 0b111#3), (.br 5, 0b111#3)] ∧
    (Instr.brNone 5, 0b000#3) ∈ [(Instr.brNone 5, 0b000#3), (.brp 5, 0b001#3), (.brz 5, 0b010#3), (.brzp 5, 0b011#3),
      (.brn 5, 0b100#3), (.brnp 5, 0b101#3), (.brnz 5, 0b110#3), (.brnzp 5, 0b111#3), (.br 5, 0b111#3)] := by decide

/-- `CallThroughRegisterLinksFirst`: a base other than R7. -/
theorem witness_call_base : (6 : Reg) ≠ 7 := by decide

/-- `NextFetchSeesStore`: ST with offset 0 stores at the next instruction; STI and STR likewise. -/
theorem witness_store_at_pc :
    (∃ off9, Instr.st 0 0 = .st 0 off9 ∧ (core 0x1021 [] 0).pc = (core 0x1021 [] 0).pc + off9.signExtend 16) ∧
    (∃ off9, Instr.sti 0 0 = .sti 0 off9 ∧ ((core 0x3000 [] 0).pc) =
      (core 0x3000 [] 0).readWord ((core 0x3000 [] 0).pc + off9.signExtend 16)) ∧
    (∃ baseR off6, Instr.str 0 1 0 = .str 0 baseR off6 ∧
      (core 0 [(1, 0x3000)] 0).pc = (core 0 [(1, 0x3000)] 0).reg baseR + off6.signExtend 16) ∧
    (nextOf (exec (.st 0 0) (core 0x1021 [] 0))).isSome = true ∧ (nextOf (exec (.sti 0 0) (core 0x3000 [] 0))).isSome = true ∧
    (nextOf (exec (.str 0 1 0) (core 0 [(1, 0x3000)] 0))).isSome = true :=
  ⟨⟨0, rfl, by decide⟩, ⟨0, rfl, by decide⟩, ⟨1, 0, rfl, by decide⟩, by decide, by decide, by decide⟩

/-- `TrapSelectsService`, `GetcTakesOneByte`, `InTakesAndEchoesOneByte`: input present, and input exhausted. -/
theorem witness_input : { core 0xF020 [] 1 with inStream := [0x61] }.inStream = 0x61 :: [] ∧
    { core 0xF020 [] 1 with inStream := [0x61] }.inStream ≠ [] ∧ (core 0xF020 [] 1).inStream = [] := by decide

/-- `UnrecognizedTrapIsNoOp`: the vectors beside the services. -/
theorem witness_unrecognized : ∀ v ∈ [0x1F#8, 0x24#8, 0x26#8],
    ((core (0xF000 + v.toNat) [] 1).readWord 0x3000).extractLsb' 12 4 = 0b1111 ∧
    ((core (0xF000 + v.toNat) [] 1).readWord 0x3000).extractLsb' 0 8 ∉ [0x20, 0x21, 0x22, 0x23, 0x25] := by decide

/-- `PutsEndsWithinMemory` and `HaltZeroesPc`. -/
theorem witness_puts_and_halt :
    ((core 0xF022 [] 1).readWord (core 0xF022 [] 1).pc).extractLsb' 12 4 = 0b1111 ∧
    ((core 0xF022 [] 1).readWord (core 0xF022 [] 1).pc).extractLsb' 0 8 = 0x22 ∧
    ((core 0xF025 [] 1).readWord (core 0xF025 [] 1).pc).extractLsb' 12 4 = 0b1111 ∧
    ((core 0xF025 [] 1).readWord (core 0xF025 [] 1).pc).extractLsb' 0 8 = 0x25 := by decide

/-- `StepKeepsInvariant`, and `FlagsStayOneHot` with a flag-writing instruction. -/
theorem witness_invariant : Inv (core 0x1021 [] 1) ∧ (nextOf (step (core 0x1021 [] 1))).isSome = true ∧ OneHot (core 0x1021 [] 1).cond ∧
    ((core 0x1021 [] 1).readWord (core 0x1021 [] 1).pc).extractLsb' 12 4 ∈
      [0b0001#4, 0b0101#4, 0b1001#4, 0b0010#4, 0b1010#4, 0b0110#4, 0b1110#4] :=
  ⟨⟨by decide, .inr (.inl (by decide))⟩, by decide, .inl (by decide), by decide⟩

/-- The whole-machine statements over a completed step: a step completes for every opcode, and so does each clause's instruction (JSR
and JSRR, the four kinds of TRAP, the taken and the untaken BR). -/
theorem witness_steps_complete : ∀ w ∈ [0x0FFE, 0x01FE, 0x1021, 0x2204, 0x3700, 0x4BFF, 0x41C0, 0x5730, 0x63A0, 0x759F, 0x8000, 0x92BF,
    0xA404, 0xB9EF, 0xC0C0, 0xD123, 0xE0FF, 0xF020, 0xF021, 0xF022, 0xF023, 0xF024, 0xF025],
    (nextOf (step { core w [] 1 with inStream := [0x61] })).isSome = true := by decide

/-- `FlagWritersAndReader`: a step other than BR that stops. -/
theorem witness_reader : ((core 0xF020 [] 1).readWord (core 0xF020 [] 1).pc).extractLsb' 12 4 ≠ 0b0000 ∧
    nextOf (step (core 0xF020 [] 1)) = none := by decide

/-- `MemoriesThatReadAlikeAreEqual`. -/
theorem witness_memories : Memory.wf [(5, 1#16), (65535, 2#16)] := by decide

/-- `LoadBuildsInitialState`: the largest image that fits at its origin, the smallest that does not, an image word, and an address outside
the image. -/
theorem witness_load_sizes : (0xFFFF : Word).toNat + [0x1021#16].length ≤ 65536 ∧ 65536 < (0xFFFF : Word).toNat + [0x1021#16, 0#16].length ∧
    [0x1021#16][0]? = some 0x1021 ∧ (∀ k < [0x1021#16].length, (0x0000 : Word) ≠ 0xFFFF + BitVec.ofNat 16 k) := by decide

/-- `LoadSetsRegisters`: eight values and seven, at the default `MEM_INIT` and at another. -/
theorem witness_load_registers :
    (∃ s, State.load 0x3000 [] (some [1, 2, 3, 4, 5, 6, 7, -8]) [] = .loaded s) ∧ 8 ≤ [1, 2, 3, 4, 5, 6, 7, -8].length ∧
    ([1, 2, 3, 4, 5, 6, 7, -8] : List Int)[(7 : Reg).toNat]? = some (-8) ∧
    (∃ s, State.load 0x3000 [] (some [1, 2, 3, 4, 5, 6, 7]) [] = .loaded s) ∧ [1, 2, 3, 4, 5, 6, 7].length < 8 ∧
    (∃ s, State.load 0x3000 [] none [] = .loaded s) ∧
    (∃ s, State.loadWith id 0x3000 [] (some [1, 2, 3, 4, 5, 6, 7, -8]) [] = .loaded s) ∧
    (∃ s, State.loadWith id 0x3000 [] (some [1, 2, 3, 4, 5, 6, 7]) [] = .loaded s) ∧
    ∃ s, State.loadWith id 0x3000 [] none [] = .loaded s :=
  ⟨⟨_, rfl⟩, by decide, by decide, ⟨_, rfl⟩, by decide, ⟨_, rfl⟩, ⟨_, rfl⟩, ⟨_, rfl⟩, ⟨_, rfl⟩⟩

/-- `PlacedWordRunsNext`: the largest word. -/
theorem witness_placed : 65535 < 65536 := by decide

/-- `DriverStopsAtZeroReturn`: a step from x0000, a step to pc x0000, a step with neither, and an ended drive. -/
theorem witness_driver :
    (core 0 [] 1).readWord (core 0 [] 1).pc = 0 ∧ ((nextOf (step (core 0xF025 [] 1))).map State.pc) = some 0 ∧
    ((nextOf (step (core 0x1021 [] 1))).map State.pc) = some 0x3001 ∧
    (core 0x1021 [] 1).readWord (core 0x1021 [] 1).pc ≠ 0 ∧
    drive 1 (core 0xF025 [] 1) = .ended { core 0xF025 [] 1 with pc := 0 } := by decide

/-- `RegisterOperandIsItsDigit`: tokens that are no register. -/
theorem witness_register_tokens : ∀ t ∈ [['R', '8'], ['R', '0', '7'], ['R']],
    ∀ d : Fin 8, t ≠ ['R', Asm.decChar ⟨d.val, by omega⟩] := by decide

/-- `SignedFieldKeepsOrRejects`: the ends of the range of 9 bits, and the values just past them. -/
theorem witness_signed_field :
    0 < 9 ∧ (-(2 ^ (9 - 1) : Int) ≤ -256 ∧ (-256 : Int) ≤ 2 ^ (9 - 1) - 1) ∧ (-(2 ^ (9 - 1) : Int) ≤ 255 ∧ (255 : Int) ≤ 2 ^ (9 - 1) - 1) ∧
    ¬(-(2 ^ (9 - 1) : Int) ≤ 256 ∧ (256 : Int) ≤ 2 ^ (9 - 1) - 1) ∧ ¬(-(2 ^ (9 - 1) : Int) ≤ -257 ∧ (-257 : Int) ≤ 2 ^ (9 - 1) - 1) := by
  decide

/-- `SignedFieldKeepsOrRejects`: the ends of the vector's range, the values just past them, and a token that is no literal. -/
theorem witness_vect_literals :
    Asm.literal ['#', '0'] = some 0 ∧ Asm.literal ['#', '2', '5', '5'] = some 255 ∧ Asm.literal ['#', '2', '5', '6'] = some 256 ∧
    Asm.literal ['#', '-', '1'] = some (-1) ∧ Asm.literal ['X', 'G'] = none := by decide

/-- `LabelOperandReachesItsLabel`, the outcomes of a label operand: a label, a token that is none, and a literal that is none. -/
theorem witness_label_outcomes :
    Asm.SymTab.find [(['S'], 0x3400)] ['S'] = some 0x3400 ∧ Asm.SymTab.find [] ['S'] = none ∧ Asm.literal ['S'] = none ∧
    Asm.SymTab.find [] ['5'] = none ∧ Asm.literal ['5'] = some 5 := by decide

/-- `LabelOperandReachesItsLabel`: a 9-bit and an 11-bit reference at the ends of their ranges. -/
theorem witness_label :
    (⟨['B', 'R'], 0x0E00, [.pcRel9]⟩ : Asm.MnemonicEntry) ∈ Asm.mnemonicTable 0 ∧
    (⟨['J', 'S', 'R'], 0x4800, [.pcRel11]⟩ : Asm.MnemonicEntry) ∈ Asm.mnemonicTable 0 ∧
    Asm.SymTab.find [(['T'], 0x2F01)] ['T'] = some 0x2F01 ∧ Asm.SymTab.find [(['S'], 0x3400)] ['S'] = some 0x3400 ∧
    Asm.encodeOperation {} [(['T'], 0x2F01)] 0x3000 ['B', 'R'] ([] ++ [['T']]) = .ok 0x0F00 ∧
    Asm.encodeOperation {} [(['S'], 0x3400)] 0x3000 ['J', 'S', 'R'] ([] ++ [['S']]) = .ok 0x4BFF := by decide

/-- `AssembleBranches`, `AssembleLoadsStores` and `AssembleWithoutOperands`: a row of each list. -/
theorem witness_mnemonic_rows :
    ((['B', 'R', 'N', 'Z', 'P'] : Asm.Text), 0b111#3) ∈ [((['B', 'R'] : Asm.Text), 0b111#3), (['B', 'R', 'N'], 0b100#3),
      (['B', 'R', 'Z'], 0b010#3), (['B', 'R', 'P'], 0b001#3), (['B', 'R', 'N', 'Z'], 0b110#3), (['B', 'R', 'N', 'P'], 0b101#3),
      (['B', 'R', 'Z', 'P'], 0b011#3), (['B', 'R', 'N', 'Z', 'P'], 0b111#3)] ∧
    ((['S', 'T', 'I'] : Asm.Text), 0b1011#4) ∈ [((['L', 'D'] : Asm.Text), 0b0010#4), (['L', 'D', 'I'], 0b1010#4),
      (['L', 'E', 'A'], 0b1110#4), (['S', 'T'], 0b0011#4), (['S', 'T', 'I'], 0b1011#4)] ∧
    ((['H', 'A', 'L', 'T'] : Asm.Text), 0xF025#16) ∈ [((['G', 'E', 'T', 'C'] : Asm.Text), 0xF020#16), (['O', 'U', 'T'], 0xF021#16),
      (['P', 'U', 'T', 'S'], 0xF022#16), (['I', 'N'], 0xF023#16), (['P', 'U', 'T', 'S', 'P'], 0xF024#16),
      (['H', 'A', 'L', 'T'], 0xF025#16)] := by decide

/-- `ArityMismatchIsTheFatalFailure`. -/
theorem witness_entry : Asm.Params.entry {} ['N', 'O', 'T'] = some ⟨['N', 'O', 'T'], 0x903F, [.reg 9, .reg 6]⟩ := by decide

/-- `DirectivesRender`: each directive with an operand at the edge of its range. -/
theorem witness_directives_fill :
    Asm.tokens ['.', 'F', 'I', 'L', 'L', ' ', '#', '-', '6', '5', '5', '3', '6'] =
      ['.', 'F', 'I', 'L', 'L'] :: [['#', '-', '6', '5', '5', '3', '6']] ∧
    Asm.fillValue [['#', '-', '6', '5', '5', '3', '6']] = some (-65536) := by decide
theorem witness_directives_blkw :
    Asm.tokens ['.', 'B', 'L', 'K', 'W', ' ', '0'] = ['.', 'B', 'L', 'K', 'W'] :: [['0']] ∧
    Asm.blkwCount [['0']] = some 0 := by decide
theorem witness_directives_stringz :
    Asm.tokens ['.', 'S', 'T', 'R', 'I', 'N', 'G', 'Z', ' ', '"', 'A', '"'] =
      ['.', 'S', 'T', 'R', 'I', 'N', 'G', 'Z'] :: [['"', 'A', '"']] ∧
    Asm.quoted ['.', 'S', 'T', 'R', 'I', 'N', 'G', 'Z', ' ', '"', 'A', '"'] = some ['A'] ∧
    ∀ c ∈ ['A'], c.toNat < 256 :=
  ⟨by decide, by decide, by simp⟩

/-- `Pass2StopsAtFirstFailure`: records that all succeed, and records of which the second fails. -/
theorem witness_pass2 :
    [Asm.Record.mk 0x3000 ['R', 'E', 'T'] .operation].map (Asm.encodeRecord {} []) = [[0xC1C0#16]].map Except.ok ∧
    Asm.pass2 {} [] [Asm.Record.mk 0x3000 ['R', 'E', 'T'] .operation, Asm.Record.mk 0x3001 ['J', 'M', 'P'] .operation] =
      .error .fatalArityMismatch := by decide

/-- `AssembledRecordsLoadAtTheirAddresses`. -/
theorem witness_assembly :
    Asm.assemble {} [".ORIG xFFFF".toList, "HALT".toList] = .ok { origin := some 0xFFFF, words := [0xF025] } ∧
    ({ origin := some 0xFFFF, words := [0xF025] } : Asm.Image).origin = some 0xFFFF := by decide

end Sys2Proof.Tests
end

section
/-! PROOFS. The signed, literal and trap-vector fields of an operand: each keeps its value or rejects it (00_scope.md R11,
40_encoder.md R117 to R119). -/

namespace Sys2Proof.Asm

theorem fitsSigned_iff (n : Nat) (v : Int) :
    fitsSigned n v = true ↔ -(2 ^ (n - 1) : Int) ≤ v ∧ v ≤ 2 ^ (n - 1) - 1 := by
  simp [fitsSigned]

theorem fitsUnsigned_iff (n : Nat) (v : Int) : fitsUnsigned n v = true ↔ 0 ≤ v ∧ v ≤ 2 ^ n - 1 := by
  simp [fitsUnsigned]

/-- A value that fits a signed field is what the field reads back as. -/
theorem toInt_twosComplement_of_fitsSigned {n : Nat} {v : Int} (hn : 0 < n) (hv : fitsSigned n v = true) :
    (twosComplement n v).toInt = v := by
  obtain ⟨hlo, hhi⟩ := (fitsSigned_iff n v).mp hv
  exact BitVec.toInt_ofInt_eq_self hn hlo (Int.lt_of_le_sub_one hhi)

/-- A value that fits an unsigned field is what the field reads back as. -/
theorem toNat_ofInt_of_fitsUnsigned {n : Nat} {v : Int} (hv : fitsUnsigned n v = true) :
    ((BitVec.ofInt n v).toNat : Int) = v := by
  obtain ⟨hlo, hhi⟩ := (fitsUnsigned_iff n v).mp hv
  have hmod : v % 2 ^ n = v := Int.emod_eq_of_lt hlo (Int.lt_of_le_sub_one hhi)
  simp [BitVec.toNat_ofInt, hmod, hlo]

theorem signedField_of_fits {n : Nat} {v : Int} (hv : fitsSigned n v = true) :
    signedField n v = .ok (twosComplement n v) := if_pos hv

theorem signedField_of_not_fits {n : Nat} {v : Int} (hv : ¬ fitsSigned n v = true) :
    signedField n v = .error (.recoverable .fieldOverflow) := if_neg hv

theorem literalField_of_no_literal {t : Text} (ht : literal t = none) (n : Nat) :
    literalField n t = .error (.recoverable .invalidLiteral) := by
  simp [literalField, ht]

theorem literalField_of_literal {t : Text} {v : Int} (ht : literal t = some v) (n : Nat) :
    literalField n t = signedField n v := by
  simp [literalField, ht]

theorem vectField_of_no_literal {t : Text} (ht : literal t = none) :
    vectField t = .error (.recoverable .invalidLiteral) := by
  simp [vectField, ht]

theorem vectField_of_fits {t : Text} {v : Int} (ht : literal t = some v) (hv : fitsUnsigned 8 v = true) :
    vectField t = .ok (BitVec.ofInt 8 v) := by
  simp [vectField, ht, hv]

theorem vectField_of_not_fits {t : Text} {v : Int} (ht : literal t = some v) (hv : ¬ fitsUnsigned 8 v = true) :
    vectField t = .error (.recoverable .fieldOverflow) := by
  simp [vectField, ht, hv]

/-- Settles O48: a value in range is its field's reading, and each outcome is one branch of the field's definition. -/
theorem signedFieldKeepsOrRejects : Obligations.SignedFieldKeepsOrRejects := by
  refine ⟨fun n v hn => ?_, fun t ht => ?_, fun t v ht => ?_⟩
  · rw [← fitsSigned_iff]
    exact ⟨fun hv => ⟨_, signedField_of_fits hv, toInt_twosComplement_of_fitsSigned hn hv⟩, signedField_of_not_fits⟩
  · exact ⟨literalField_of_no_literal ht, vectField_of_no_literal ht⟩
  · have hrange : 0 ≤ v ∧ v ≤ 255 ↔ fitsUnsigned 8 v = true := (fitsUnsigned_iff 8 v).symm
    rw [hrange]
    exact ⟨literalField_of_literal ht, fun hv => ⟨_, vectField_of_fits ht hv, toNat_ofInt_of_fitsUnsigned hv⟩,
      vectField_of_not_fits ht⟩

end Sys2Proof.Asm
end

section
/-! PROOFS. Opcode by opcode, what the decoder answers and what a completed step does: the inversion lemma of `step` that keeps the
fetched word (30_encoding.md R72, 41_sequencer.md R150, R151). -/

namespace Sys2Proof.Machine

/-- The decoder's answers, one constructor per opcode and sub-form (30_encoding.md R71, R72). -/
inductive DecodedAs (ir : Word) : Instr → Prop
  | br (h : opcodeField ir = 0b0000) : DecodedAs ir (decodeBr (nzpField ir) (off9Field ir))
  | addImm (h : opcodeField ir = 0b0001) : DecodedAs ir (.addImm (drField ir) (sr1Field ir) (imm5Field ir))
  | addReg (h : opcodeField ir = 0b0001) : DecodedAs ir (.addReg (drField ir) (sr1Field ir) (sr2Field ir))
  | ld (h : opcodeField ir = 0b0010) : DecodedAs ir (.ld (drField ir) (off9Field ir))
  | st (h : opcodeField ir = 0b0011) : DecodedAs ir (.st (drField ir) (off9Field ir))
  | jsr (h : opcodeField ir = 0b0100) : DecodedAs ir (.jsr (off11Field ir))
  | jsrr (h : opcodeField ir = 0b0100) : DecodedAs ir (.jsrr (sr1Field ir))
  | andImm (h : opcodeField ir = 0b0101) : DecodedAs ir (.andImm (drField ir) (sr1Field ir) (imm5Field ir))
  | andReg (h : opcodeField ir = 0b0101) : DecodedAs ir (.andReg (drField ir) (sr1Field ir) (sr2Field ir))
  | ldr (h : opcodeField ir = 0b0110) : DecodedAs ir (.ldr (drField ir) (sr1Field ir) (off6Field ir))
  | str (h : opcodeField ir = 0b0111) : DecodedAs ir (.str (drField ir) (sr1Field ir) (off6Field ir))
  | rti (h : opcodeField ir = 0b1000) : DecodedAs ir .rti
  | not (h : opcodeField ir = 0b1001) : DecodedAs ir (.not (drField ir) (sr1Field ir))
  | ldi (h : opcodeField ir = 0b1010) : DecodedAs ir (.ldi (drField ir) (off9Field ir))
  | sti (h : opcodeField ir = 0b1011) : DecodedAs ir (.sti (drField ir) (off9Field ir))
  | jmp (h : opcodeField ir = 0b1100) : DecodedAs ir (decodeJmp (sr1Field ir))
  | reserved (h : opcodeField ir = 0b1101) : DecodedAs ir .reserved
  | lea (h : opcodeField ir = 0b1110) : DecodedAs ir (.lea (drField ir) (off9Field ir))
  | trap (h : opcodeField ir = 0b1111) : DecodedAs ir (decodeTrap (vect8Field ir))

theorem opcode_cases (op : BitVec 4) :
    op = 0b0000 ∨ op = 0b0001 ∨ op = 0b0010 ∨ op = 0b0011 ∨ op = 0b0100 ∨ op = 0b0101 ∨ op = 0b0110 ∨ op = 0b0111 ∨
    op = 0b1000 ∨ op = 0b1001 ∨ op = 0b1010 ∨ op = 0b1011 ∨ op = 0b1100 ∨ op = 0b1101 ∨ op = 0b1110 ∨ op = 0b1111 := by
  bv_omega

theorem decodedAs_decode (ir : Word) : DecodedAs ir (decode ir) := by
  rcases opcode_cases (opcodeField ir) with h | h | h | h | h | h | h | h | h | h | h | h | h | h | h | h
  · simpa [decode, h] using DecodedAs.br h
  · cases hm : immBit ir
    · simpa [decode, h, hm] using DecodedAs.addReg h
    · simpa [decode, h, hm] using DecodedAs.addImm h
  · simpa [decode, h] using DecodedAs.ld h
  · simpa [decode, h] using DecodedAs.st h
  · cases hm : jsrBit ir
    · simpa [decode, h, hm] using DecodedAs.jsrr h
    · simpa [decode, h, hm] using DecodedAs.jsr h
  · cases hm : immBit ir
    · simpa [decode, h, hm] using DecodedAs.andReg h
    · simpa [decode, h, hm] using DecodedAs.andImm h
  · simpa [decode, h] using DecodedAs.ldr h
  · simpa [decode, h] using DecodedAs.str h
  · simpa [decode, h] using DecodedAs.rti h
  · simpa [decode, h] using DecodedAs.not h
  · simpa [decode, h] using DecodedAs.ldi h
  · simpa [decode, h] using DecodedAs.sti h
  · simpa [decode, h] using DecodedAs.jmp h
  · simpa [decode, h] using DecodedAs.reserved h
  · simpa [decode, h] using DecodedAs.lea h
  · simpa [decode, h] using DecodedAs.trap h

/-! ### The shared spellings run the operation they spell (log 9) -/

theorem exec_decodeBr (mask : BitVec 3) (off9 : Off9) (s : State) :
    exec (decodeBr mask off9) s = .next (branch mask off9 s) := by
  unfold decodeBr
  split_ifs with h0 h1 h2 h3 h4 h5 h6
  · rw [h0]; rfl
  · rw [h1]; rfl
  · rw [h2]; rfl
  · rw [h3]; rfl
  · rw [h4]; rfl
  · rw [h5]; rfl
  · rw [h6]; rfl
  · rw [show mask = 0b111 by bv_omega]; rfl

theorem exec_decodeJmp (baseR : Reg) (s : State) : exec (decodeJmp baseR) s = .next (jumpTo baseR s) := by
  unfold decodeJmp
  split_ifs with h7
  · rw [h7]; rfl
  · rfl

theorem exec_decodeTrap (v : Vec8) (s : State) : exec (decodeTrap v) s = takeTrap v s := by
  unfold decodeTrap
  split_ifs with h20 h21 h22 h23 h24 h25
  · rw [h20]; rfl
  · rw [h21]; rfl
  · rw [h22]; rfl
  · rw [h23]; rfl
  · rw [h24]; rfl
  · rw [h25]; rfl
  · rfl

/-! ### What a service did (45_trap.md R221) -/

/-- GETC and IN move one byte from the input to R0; the others leave the registers (45_trap.md R222 to R227). -/
def ServiceDid : Option TrapService → State → State → Prop
  | some .getc, s, t => ∃ b, TookInput b [] s t
  | some .inp, s, t => ∃ b, TookInput b [b] s t
  | some .out, s, t | some .puts, s, t => ∃ bs, t = s.consoleWriteAll bs
  | some .halt, s, t => t = s.setPc 0
  | none, s, t => t = s

/-- The effect GETC and IN share: the byte is taken, put into R0 and echoed (45_trap.md R222, R225). -/
theorem tookInput_of_setReg {s : State} {b : Byte} {rest : List Byte} (echo : List Byte) (h : s.inStream = b :: rest) :
    TookInput b echo s ((State.consoleWriteAll { s with inStream := rest } echo).setReg 0 (b.setWidth 16)) :=
  ⟨h, State.reg_setReg_same _ _ _, rfl, fun _ hr => State.reg_setReg_other _ _ hr, rfl, rfl, fun _ => rfl⟩

theorem serviceGetc_tookInput {s t : State} (h : serviceGetc s = .next t) : ∃ b, TookInput b [] s t := by
  rcases hin : s.inStream with _ | ⟨b, rest⟩
  · simp [serviceGetc_nil hin] at h
  · rw [serviceGetc_cons hin] at h
    cases h
    exact ⟨b, by simpa [State.consoleWriteAll] using tookInput_of_setReg [] hin⟩

theorem serviceIn_tookInput {s t : State} (h : serviceIn s = .next t) : ∃ b, TookInput b [b] s t := by
  rcases hin : s.inStream with _ | ⟨b, rest⟩
  · simp [serviceIn_nil hin] at h
  · rw [serviceIn_cons hin] at h
    cases h
    exact ⟨b, tookInput_of_setReg [b] hin⟩

theorem takeTrap_did {v : Vec8} {s t : State} (h : takeTrap v s = .next t) : ServiceDid (trapService v) s t := by
  unfold takeTrap at h
  generalize trapService v = o at h ⊢
  rcases o with _ | _ | _ | _ | _ | _
  case none => cases h; rfl
  case some.getc => exact serviceGetc_tookInput h
  case some.out => cases h; exact ⟨_, rfl⟩
  case some.puts => cases h; exact ⟨_, rfl⟩
  case some.inp => exact serviceIn_tookInput h
  case some.halt => cases h; rfl

theorem trapService_eq_getc {v : Vec8} (h : trapService v = some .getc) : v = 0x20 := by
  by_contra hne
  simp only [trapService, if_neg hne] at h
  split_ifs at h <;> cases h

theorem trapService_eq_inp {v : Vec8} (h : trapService v = some .inp) : v = 0x23 := by
  by_contra hne
  simp only [trapService, if_neg hne] at h
  split_ifs at h <;> cases h

/-- No service writes the flags (45_trap.md R220). -/
theorem ServiceDid.cond_eq {o : Option TrapService} {s t : State} (h : ServiceDid o s t) : t.cond = s.cond := by
  rcases o with _ | _ | _ | _ | _ | _
  case none => obtain rfl : t = _ := h; rfl
  case some.getc => obtain ⟨b, _, _, _, _, hcond, _⟩ := h; exact hcond
  case some.out => obtain ⟨bs, rfl⟩ := h; rfl
  case some.puts => obtain ⟨bs, rfl⟩ := h; rfl
  case some.inp => obtain ⟨b, _, _, _, _, hcond, _⟩ := h; exact hcond
  case some.halt => obtain rfl : t = _ := h; rfl

/-- Only the two input services write a register (45_trap.md R222, R225). -/
theorem ServiceDid.keepsRegs {o : Option TrapService} {s t : State} (h : ServiceDid o s t) (hgetc : o ≠ some .getc)
    (hinp : o ≠ some .inp) : KeepsRegs s t := by
  rcases o with _ | _ | _ | _ | _ | _
  case none => obtain rfl : t = _ := h; exact fun _ => rfl
  case some.getc => exact absurd rfl hgetc
  case some.out => obtain ⟨bs, rfl⟩ := h; exact fun _ => rfl
  case some.puts => obtain ⟨bs, rfl⟩ := h; exact fun _ => rfl
  case some.inp => exact absurd rfl hinp
  case some.halt => obtain rfl : t = _ := h; exact fun _ => rfl

/-! ### What a step did, by the class of the fetched word -/

/-- The instructions by what they change. -/
inductive OpClass
  /-- ADD, AND, NOT, LD, LDI, LDR and LEA: DR and the flags. -/
  | result
  /-- BR, JMP and RET: the pc. -/
  | jump
  /-- JSR and JSRR: R7 and the pc. -/
  | call
  /-- ST, STI and STR: one word of memory. -/
  | store
  /-- RTI and the reserved opcode. -/
  | nothing
  /-- TRAP: what the service of its vector changes. -/
  | trap

/-- The opcodes of ADD, AND, NOT, LD, LDI, LDR and LEA, in the order the statements list them (10_state.md R27). -/
def flagWriters : List (BitVec 4) := [0b0001, 0b0101, 0b1001, 0b0010, 0b1010, 0b0110, 0b1110]

/-- The class of an opcode (30_encoding.md R72). -/
def classOf (op : BitVec 4) : OpClass :=
  if op ∈ flagWriters then .result
  else if op = 0b0000 ∨ op = 0b1100 then .jump
  else if op = 0b0100 then .call
  else if op = 0b0011 ∨ op = 0b1011 ∨ op = 0b0111 then .store
  else if op = 0b1000 ∨ op = 0b1101 then .nothing
  else .trap

theorem classOf_of_flagWriter {op : BitVec 4} (h : op ∈ flagWriters) : classOf op = .result := if_pos h

theorem classOf_ne_result {op : BitVec 4} (h : op ∉ flagWriters) : classOf op ≠ .result := by
  unfold classOf
  rw [if_neg h]
  split_ifs <;> nofun

/-- The opcodes whose steps write no register (10_state.md R21). -/
theorem classOf_registerKeeper {op : BitVec 4}
    (h : op ∈ [0b0000#4, 0b0011#4, 0b0111#4, 0b1000#4, 0b1011#4, 0b1100#4, 0b1101#4]) :
    classOf op = .jump ∨ classOf op = .store ∨ classOf op = .nothing := by
  fin_cases h
  · exact .inl rfl
  · exact .inr (.inl rfl)
  · exact .inr (.inl rfl)
  · exact .inr (.inr rfl)
  · exact .inr (.inl rfl)
  · exact .inl rfl
  · exact .inr (.inr rfl)

/-- What an instruction `ir` of a class did to the state `s` its handler was given. -/
def OpClass.Did : OpClass → Word → State → State → Prop
  | .result, ir, s, t => ∃ v, t = s.writeResult (drField ir) v
  | .jump, _, s, t => ∃ a, t = s.setPc a
  | .call, _, s, t => ∃ a, t = (s.setReg 7 s.pc).setPc a
  | .store, _, s, t => ∃ a v, t = s.writeWord a v
  | .nothing, _, s, t => t = s
  | .trap, ir, s, t => ServiceDid (trapService (vect8Field ir)) s t

theorem exec_decode_did {ir : Word} {s t : State} (h : exec (decode ir) s = .next t) :
    (classOf (opcodeField ir)).Did ir s t := by
  have hd := decodedAs_decode ir
  generalize decode ir = i at h hd
  cases hd
  case br hop =>
    rw [exec_decodeBr] at h
    cases h
    exact hop ▸ branch_eq_setPc _ _ s
  case jmp hop =>
    rw [exec_decodeJmp] at h
    cases h
    exact hop ▸ ⟨_, rfl⟩
  case jsr hop => cases h; exact hop ▸ ⟨_, rfl⟩
  case jsrr hop => cases h; exact hop ▸ callThrough_eq _ _ s
  case trap hop => exact hop ▸ takeTrap_did (exec_decodeTrap _ s ▸ h)
  case st hop => cases h; exact hop ▸ ⟨_, _, rfl⟩
  case sti hop => cases h; exact hop ▸ ⟨_, _, rfl⟩
  case str hop => cases h; exact hop ▸ ⟨_, _, rfl⟩
  case rti hop => cases h; exact hop ▸ rfl
  case reserved hop => cases h; exact hop ▸ rfl
  case addImm hop | addReg hop | andImm hop | andReg hop | not hop | ld hop | ldi hop | ldr hop | lea hop =>
    cases h
    exact hop ▸ ⟨_, rfl⟩

/-- A completed step did what the class of its fetched word says, to the state after the fetch (41_sequencer.md R150). -/
theorem step_did {s t : State} {c : OpClass} (h : step s = .next t) (hc : classOf (opcodeField (s.readWord s.pc)) = c) :
    c.Did (s.readWord s.pc) s.advance t := hc ▸ exec_decode_did h

end Sys2Proof.Machine
end

section
/-! PROOFS. The invariant every step keeps, and who writes the flags, who reads them and who writes a register (10_state.md R21, R26,
R27). -/

namespace Sys2Proof.Machine

/-! ### The flags -/

theorem oneHot_condOf (v : Word) : OneHot (condOf v) := by
  unfold condOf
  split_ifs
  · exact .inr (.inl rfl)
  · exact .inr (.inr rfl)
  · exact .inl rfl

/-- `setcc` shows the sign of the word as a signed number (41_sequencer.md R152). -/
theorem flagsShow_of_cond {v : Word} {t : State} (h : t.cond = condOf v) : FlagsShow v t := by
  simp only [FlagsShow, h, condOf, BitVec.msb_eq_toInt, decide_eq_true_eq]

/-- A handler leaves the flags or sets them from a word. -/
theorem Effect.cond_eq {s t : State} (h : Effect s t) : t.cond = s.cond ∨ ∃ v, t.cond = condOf v := by
  cases h
  case result v => exact .inr ⟨v, rfl⟩
  all_goals exact .inl rfl

/-- A handler leaves the memory or writes one word of it. -/
theorem Effect.mem_eq {s t : State} (h : Effect s t) : t.mem = s.mem ∨ ∃ a v, t.mem = s.mem.write a v := by
  cases h
  case store a v => exact .inr ⟨a, v, rfl⟩
  all_goals exact .inl rfl

/-- Settles O32: a handler writes the memory only through `Memory.write` and the flags only through `condOf`. -/
theorem stepKeepsInvariant : Obligations.StepKeepsInvariant := by
  rintro s t ⟨hwf, hlegal⟩ hstep
  have heff := step_effect hstep
  constructor
  · rcases heff.mem_eq with hmem | ⟨a, v, hmem⟩
    · exact hmem ▸ hwf
    · exact hmem ▸ Memory.write_wf hwf a v
  · rcases heff.cond_eq with hcond | ⟨v, hcond⟩
    · exact hcond ▸ hlegal
    · exact hcond ▸ .inr (oneHot_condOf v)

/-- Settles O33. -/
theorem resetMeetsInvariant : Obligations.ResetMeetsInvariant := ⟨Memory.wf_nil, .inl rfl⟩

/-! ### What a step of a class leaves -/

/-- A step of a flag writer puts a word into DR and sets the flags from it (10_state.md R27). -/
theorem step_of_flagWriter {s t : State} (hstep : step s = .next t)
    (hop : opcodeField (s.readWord s.pc) ∈ flagWriters) :
    ∃ v, t = s.advance.writeResult (drField (s.readWord s.pc)) v :=
  step_did hstep (classOf_of_flagWriter hop)

/-- Only the flag writers change the flags. -/
theorem OpClass.Did.cond_eq {c : OpClass} {ir : Word} {s t : State} (h : c.Did ir s t) (hc : c ≠ .result) :
    t.cond = s.cond := by
  cases c
  case result => exact absurd rfl hc
  case jump => obtain ⟨a, rfl⟩ := h; rfl
  case call => obtain ⟨a, rfl⟩ := h; rfl
  case store => obtain ⟨a, v, rfl⟩ := h; rfl
  case nothing => obtain rfl : t = s := h; rfl
  case trap => exact ServiceDid.cond_eq h

/-- Settles O34. -/
theorem flagsStayOneHot : Obligations.FlagsStayOneHot := by
  intro s t hstep
  refine ⟨fun hhot => ?_, fun hop => ?_⟩
  · rcases (step_effect hstep).cond_eq with hcond | ⟨v, hcond⟩
    · exact hcond ▸ hhot
    · exact hcond ▸ oneHot_condOf v
  · obtain ⟨v, rfl⟩ := step_of_flagWriter hstep hop
    exact oneHot_condOf v

/-- GETC and IN put the byte they take into R0 and write no other register (45_trap.md R222, R225). -/
theorem ServiceDid.input {o : Option TrapService} {s t : State} (h : ServiceDid o s t) (ho : o = some .getc ∨ o = some .inp) :
    KeepsRegsBut 0 s t ∧ ∃ b rest, s.inStream = b :: rest ∧ t.reg 0 = b.zeroExtend 16 := by
  rcases ho with rfl | rfl
  · obtain ⟨b, hin, hr0, -, hregs, -⟩ := h
    exact ⟨hregs, b, _, hin, hr0⟩
  · obtain ⟨b, hin, hr0, -, hregs, -⟩ := h
    exact ⟨hregs, b, _, hin, hr0⟩

/-- Settles O36, class by class. -/
theorem registerWriters : Obligations.RegisterWriters := by
  intro s t hstep
  refine ⟨fun hop => ?_, fun hop => ?_, fun hop => ?_, fun hop => ?_⟩
  · obtain ⟨v, rfl⟩ := step_of_flagWriter hstep hop
    exact fun r hr => State.reg_writeResult_other _ v hr
  · obtain ⟨a, rfl⟩ := step_did (c := .call) hstep (congrArg classOf hop)
    exact ⟨fun r hr => State.reg_setReg_other _ _ hr, State.reg_setReg_same _ _ _⟩
  · have hserv : ServiceDid (trapService (vect8Field (s.readWord s.pc))) s.advance t :=
      step_did (c := .trap) hstep (congrArg classOf hop)
    refine ⟨fun hvec => ?_, fun h20 h23 => ?_⟩
    · exact hserv.input (hvec.imp (congrArg trapService) (congrArg trapService))
    · exact hserv.keepsRegs (fun h => h20 (trapService_eq_getc h)) (fun h => h23 (trapService_eq_inp h))
  · rcases classOf_registerKeeper hop with hjump | hstore | hnothing
    · obtain ⟨a, rfl⟩ := step_did hstep hjump
      exact fun _ => rfl
    · obtain ⟨a, v, rfl⟩ := step_did hstep hstore
      exact fun _ => rfl
    · obtain rfl : t = s.advance := step_did hstep hnothing
      exact fun _ => rfl

/-! ### The reader of the flags -/

/-- Two steps that end alike: in states that differ in the flags alone, or in the same fault. -/
inductive AlikeButFlags : Host.Outcome State Fault Refusal → Host.Outcome State Fault Refusal → Prop
  | next {t t' : State} (h : { t' with cond := t.cond } = t) : AlikeButFlags (.next t) (.next t')
  | fault (f : Fault) : AlikeButFlags (.fault f) (.fault f)

theorem AlikeButFlags.next_of_next {t : State} {o : Host.Outcome State Fault Refusal} (h : AlikeButFlags (.next t) o) :
    ∃ t', o = .next t' ∧ { t' with cond := t.cond } = t := by
  cases h
  case next t' ht' => exact ⟨t', rfl, ht'⟩

theorem AlikeButFlags.fault_of_fault {f : Fault} {o : Host.Outcome State Fault Refusal} (h : AlikeButFlags (.fault f) o) :
    o = .fault f := by
  cases h
  rfl

theorem serviceGetc_alike (s : State) (c : BitVec 3) : AlikeButFlags (serviceGetc s) (serviceGetc { s with cond := c }) := by
  rcases hin : s.inStream with _ | ⟨b, rest⟩
  · rw [serviceGetc_nil hin]
    exact .fault _
  · rw [serviceGetc_cons hin]
    exact .next rfl

theorem serviceIn_alike (s : State) (c : BitVec 3) : AlikeButFlags (serviceIn s) (serviceIn { s with cond := c }) := by
  rcases hin : s.inStream with _ | ⟨b, rest⟩
  · rw [serviceIn_nil hin]
    exact .fault _
  · rw [serviceIn_cons hin]
    exact .next rfl

theorem takeTrap_alike (v : Vec8) (s : State) (c : BitVec 3) :
    AlikeButFlags (takeTrap v s) (takeTrap v { s with cond := c }) := by
  unfold takeTrap
  rcases trapService v with _ | _ | _ | _ | _ | _
  case none => exact .next rfl
  case some.getc => exact serviceGetc_alike s c
  case some.out => exact .next rfl
  case some.puts => exact .next rfl
  case some.inp => exact serviceIn_alike s c
  case some.halt => exact .next rfl

/-- No handler but BR's reads the flags. -/
theorem exec_decode_alike {ir : Word} (hop : opcodeField ir ≠ 0b0000) (s : State) (c : BitVec 3) :
    AlikeButFlags (exec (decode ir) s) (exec (decode ir) { s with cond := c }) := by
  have hd := decodedAs_decode ir
  generalize decode ir = i at hd ⊢
  cases hd
  case br hbr => exact absurd hbr hop
  case jmp => rw [exec_decodeJmp, exec_decodeJmp]; exact .next rfl
  case trap => rw [exec_decodeTrap, exec_decodeTrap]; exact takeTrap_alike _ s c
  all_goals exact .next rfl

/-- Settles O35: the class names the writers, and the handlers of the other opcodes do not see the flags. -/
theorem flagWritersAndReader : Obligations.FlagWritersAndReader := by
  refine fun s => ⟨fun t hstep => ⟨fun hop => ?_, fun hop => ?_⟩, fun c hop => ?_⟩
  · obtain ⟨v, rfl⟩ := step_of_flagWriter hstep hop
    exact (State.reg_writeResult_same _ _ v).symm ▸ flagsShow_of_cond rfl
  · exact (step_did hstep rfl).cond_eq (classOf_ne_result hop)
  · have halike : AlikeButFlags (step s) (step { s with cond := c }) := exec_decode_alike hop s.advance c
    exact ⟨fun t hstep => (hstep ▸ halike).next_of_next, fun f hstep => (hstep ▸ halike).fault_of_fault⟩

end Sys2Proof.Machine
end

section
/-! PROOFS. Canonical memories that read alike are equal (10_state.md R30; log 1), and what the load puts into the registers
(10_state.md R39, R44). -/

namespace Sys2Proof.Machine

/-! ### A canonical memory is the set of its cells that do not read as `MEM_INIT` -/

/-- In a list of rising addresses, a listed cell is what its address reads as. -/
theorem Memory.read_of_mem {m : Memory} (hm : m.Pairwise (fun c d => c.1 < d.1)) {a : Word} {v : Word}
    (hc : (a.toNat, v) ∈ m) : m.read a = v := by
  induction m with
  | nil => simp at hc
  | cons d m ih =>
    obtain ⟨k, w⟩ := d
    rw [List.pairwise_cons] at hm
    obtain ⟨hlt, hrest⟩ := hm
    rw [Memory.read_cons]
    rcases List.mem_cons.mp hc with heq | hc
    · cases heq
      exact if_pos rfl
    · rw [if_neg (hlt _ hc).ne, ih hrest hc]

/-- An address that does not read as `MEM_INIT` is listed. -/
theorem Memory.mem_of_read_ne (m : Memory) {a : Word} (h : m.read a ≠ Config.memInit a) : (a.toNat, m.read a) ∈ m := by
  by_contra hnot
  induction m with
  | nil => exact h rfl
  | cons d m ih =>
    obtain ⟨k, w⟩ := d
    rw [Memory.read_cons] at h hnot
    split_ifs at h hnot with hk
    · exact hnot (hk ▸ List.mem_cons_self)
    · exact ih h fun hc => hnot (List.mem_cons_of_mem _ hc)

theorem Memory.mem_iff_read {m : Memory} (hm : m.wf) (c : Nat × Word) :
    c ∈ m ↔ c.1 < 65536 ∧ m.read (BitVec.ofNat 16 c.1) = c.2 ∧ c.2 ≠ Config.memInit (BitVec.ofNat 16 c.1) := by
  obtain ⟨hpair, hcells⟩ := hm
  obtain ⟨k, v⟩ := c
  have hk : k < 65536 → (BitVec.ofNat 16 k).toNat = k := fun hlt => by simpa using hlt
  constructor
  · intro hc
    obtain ⟨hlt, hne⟩ := hcells _ hc
    exact ⟨hlt, Memory.read_of_mem hpair (by rwa [hk hlt]), hne⟩
  · rintro ⟨hlt, hread, hne⟩
    have hmem := Memory.mem_of_read_ne m (hread ▸ hne)
    rwa [hk hlt, hread] at hmem

theorem Memory.wf_nodup {m : Memory} (hm : m.wf) : m.Nodup :=
  hm.1.imp fun hlt e => (e ▸ hlt).false

/-- Settles O40: two rising lists with the same cells are the same list. -/
theorem memoriesThatReadAlikeAreEqual : Obligations.MemoriesThatReadAlikeAreEqual := by
  intro m m' hm hm' hread
  have hmem : ∀ c, c ∈ m ↔ c ∈ m' := fun c => by
    rw [Memory.mem_iff_read hm, Memory.mem_iff_read hm', hread]
  have hperm : m.Perm m' :=
    (List.perm_ext_iff_of_nodup (Memory.wf_nodup hm) (Memory.wf_nodup hm')).mpr hmem
  exact hperm.eq_of_pairwise (fun c d _ _ hcd hdc => absurd hcd (lt_asymm hdc)) hm.1 hm'.1

/-! ### The registers after a load -/

theorem State.regs_of_loadOver {init : Memory} {origin : Word} {ws : List Word} {regs : Option (List Int)} {input : List Byte}
    {s : State} (h : State.loadOver init origin ws regs input = .loaded s) : s.regs = loadRegs regs := by
  unfold State.loadOver at h
  split_ifs at h
  cases h
  rfl

/-- Both loads take the registers from the supplied values, whatever the memory was. -/
theorem State.regs_of_load {init : Word → Word} {origin : Word} {ws : List Word} {regs : Option (List Int)} {input : List Byte}
    {s : State} (h : State.loadWith init origin ws regs input = .loaded s ∨ State.load origin ws regs input = .loaded s) :
    s.regs = loadRegs regs :=
  h.elim State.regs_of_loadOver State.regs_of_loadOver

theorem loadRegs_of_eight {vs : List Int} (h : 8 ≤ vs.length) {i : Nat} (hi : i < 8) :
    (loadRegs (some vs))[i] = BitVec.ofInt 16 (vs[i]'(by omega)) := by
  match vs, h with
  | _ :: _ :: _ :: _ :: _ :: _ :: _ :: _ :: _, _ => interval_cases i <;> rfl

theorem loadRegs_of_fewer {vs : List Int} (h : vs.length < 8) : loadRegs (some vs) = Vector.replicate 8 0 := by
  unfold loadRegs
  split
  · rename_i heq
    cases heq
    simp only [List.length_cons] at h
    omega
  · rfl

theorem State.reg_of_regs_zero {s : State} (h : s.regs = Vector.replicate 8 0) (r : Reg) : s.reg r = 0 := by
  simp [State.reg, h]

/-- Settles O42. -/
theorem loadSetsRegisters : Obligations.LoadSetsRegisters := by
  intro init origin ws input s
  refine ⟨fun vs hload => ?_, fun hload => State.reg_of_regs_zero (State.regs_of_load hload)⟩
  have hregs := State.regs_of_load hload
  refine ⟨fun h8 r v hv => ?_, fun hfew => State.reg_of_regs_zero (hregs.trans (loadRegs_of_fewer hfew))⟩
  obtain ⟨hr, rfl⟩ := List.getElem?_eq_some_iff.mp hv
  have hreg : s.reg r = BitVec.ofInt 16 vs[r.toNat] := by
    simp only [State.reg, hregs, loadRegs_of_eight h8 r.isLt]
  rw [hreg, BitVec.toNat_ofInt]
  omega

/-- Settles O43. -/
theorem resetIsLoadOfNothing : Obligations.ResetIsLoadOfNothing :=
  ⟨rfl, State.reg_of_regs_zero rfl, rfl, rfl, fun _ => rfl, rfl, rfl⟩

end Sys2Proof.Machine
end

section
/-! PROOFS. The driver ends at the first step that returns x0000 (10_state.md R37, 70_reset_and_hazards.md R270). -/

namespace Sys2Proof.Machine

theorem drive_succ_of_step {s t : State} (n : Nat) (h : step s = .next t) :
    drive (n + 1) s = if s.fetch = 0 ∨ t.pc = 0 then .ended t else drive n t := by
  have hret : stepReturn s.fetch t = 0 ↔ s.fetch = 0 ∨ t.pc = 0 := by
    unfold stepReturn
    split_ifs with h0
    · exact iff_of_true rfl (.inl h0)
    · exact (or_iff_right h0).symm
  simp only [drive, stepReport_default, h, hret]

/-- The word x0000 is a branch never taken: its step only advances the pc (30_encoding.md R89). -/
theorem step_of_zero {s : State} (h : s.fetch = 0) : step s = .next s.advance := by
  unfold step
  rw [h]
  exact congrArg Host.Outcome.next (if_neg (by simp [branchTaken]))

/-- A run that has ended stays ended, however many more steps are allowed. -/
theorem drive_add_of_ended {n : Nat} {s t : State} (h : drive n s = .ended t) (m : Nat) : drive (n + m) s = .ended t := by
  induction n generalizing s with
  | zero => cases h
  | succ n ih =>
    rw [Nat.succ_add]
    unfold drive at h ⊢
    split at h
    · split_ifs at h ⊢ with hret
      · exact h
      · exact ih h
    · cases h
    · cases h

/-- Settles O45. -/
theorem driverStopsAtZeroReturn : Obligations.DriverStopsAtZeroReturn := by
  refine ⟨fun n s t hstep hzero => ?_, fun n s t hstep hword hpc => ?_, fun n s hword => ?_, fun n s t h => drive_add_of_ended h⟩
  · exact (drive_succ_of_step n hstep).trans (if_pos hzero)
  · exact (drive_succ_of_step n hstep).trans (if_neg (not_or.mpr ⟨hword, hpc⟩))
  · exact (drive_succ_of_step n (step_of_zero hword)).trans (if_pos (.inl hword))

end Sys2Proof.Machine
end

section
/-! PROOFS. Pass 2 gives all words or the first failure (40_encoder.md R143, R145). -/

namespace Sys2Proof.Asm

theorem pass2_cons_of_error {P : Params} {sym : SymTab} {r : Record} {f : Failure} (rs : List Record)
    (h : encodeRecord P sym r = .error f) : pass2 P sym (r :: rs) = .error f := by
  simp [pass2, h]

theorem pass2_cons_of_ok {P : Params} {sym : SymTab} {r : Record} {ws : List Word} (rs : List Record)
    (h : encodeRecord P sym r = .ok ws) : pass2 P sym (r :: rs) = (pass2 P sym rs).map (ws ++ ·) := by
  simp only [pass2, h]
  cases pass2 P sym rs <;> rfl

theorem pass2_of_all_ok {P : Params} {sym : SymTab} {rs : List Record} {wss : List (List Word)}
    (h : rs.map (encodeRecord P sym) = wss.map Except.ok) : pass2 P sym rs = .ok wss.flatten := by
  induction rs generalizing wss with
  | nil =>
    obtain rfl : wss = [] := by simpa using h.symm
    rfl
  | cons r rs ih =>
    obtain ⟨ws, wss, rfl, hr, hrs⟩ := List.map_eq_cons_iff.mp h.symm
    rw [pass2_cons_of_ok rs hr.symm, ih hrs.symm]
    rfl

/-- The records before the first failure do not matter to the result. -/
theorem pass2_append_of_error {P : Params} {sym : SymTab} {f : Failure} (before rs : List Record)
    (hok : ∀ q ∈ before, ∃ ws, encodeRecord P sym q = .ok ws) (h : pass2 P sym rs = .error f) :
    pass2 P sym (before ++ rs) = .error f := by
  induction before with
  | nil => exact h
  | cons q before ih =>
    obtain ⟨ws, hq⟩ := hok q List.mem_cons_self
    rw [List.cons_append, pass2_cons_of_ok _ hq, ih fun q hq => hok q (List.mem_cons_of_mem _ hq)]
    rfl

theorem exists_first_failure {P : Params} {sym : SymTab} {rs : List Record} {f : Failure} (h : pass2 P sym rs = .error f) :
    ∃ before r after, rs = before ++ r :: after ∧ encodeRecord P sym r = .error f ∧
      ∀ q ∈ before, ∃ ws, encodeRecord P sym q = .ok ws := by
  induction rs with
  | nil => cases h
  | cons r rs ih =>
    cases hr : encodeRecord P sym r with
    | error e =>
      rw [pass2_cons_of_error rs hr] at h
      cases h
      exact ⟨[], r, rs, rfl, hr, by simp⟩
    | ok ws =>
      have hrs : pass2 P sym rs = .error f := by
        rw [pass2_cons_of_ok rs hr] at h
        cases hrest : pass2 P sym rs with
        | error e => rw [hrest] at h; cases h; rfl
        | ok rest => rw [hrest] at h; cases h
      obtain ⟨before, q, after, rfl, hq, hok⟩ := ih hrs
      exact ⟨r :: before, q, after, rfl, hq, List.forall_mem_cons.mpr ⟨⟨ws, hr⟩, hok⟩⟩

/-- Settles O58. -/
theorem pass2StopsAtFirstFailure : Obligations.Pass2StopsAtFirstFailure := by
  refine fun P sym rs => ⟨fun wss => pass2_of_all_ok, fun f => ⟨exists_first_failure, ?_⟩⟩
  rintro ⟨before, r, after, rfl, hr, hok⟩
  exact pass2_append_of_error before _ hok (pass2_cons_of_error after hr)

end Sys2Proof.Asm
end

section
/-! PROOFS. Who writes the memory, where, and that the next fetch sees it (20_memory.md R51, R63, R65). -/

namespace Sys2Proof.Machine

/-! ### A store -/

@[simp] theorem State.readWord_writeWord_same (s : State) (a v : Word) : (s.writeWord a v).readWord a = v :=
  Memory.read_write_same s.mem a v

/-- A store changes no word but the one at its address (20_memory.md R55). -/
theorem keepsMemBut_writeWord (s : State) (a v : Word) : KeepsMemBut a s (s.writeWord a v) :=
  fun _ hb => Memory.read_write_other s.mem v hb

/-- The fetch reads the memory as the store before it left it (20_memory.md R63; the spec's decision D9). -/
theorem step_writeWord_pc (s : State) (v : Word) :
    step (s.writeWord s.pc v) = exec (decode v) (s.writeWord s.pc v).advance := by
  have hfetch : (s.writeWord s.pc v).fetch = v := s.readWord_writeWord_same s.pc v
  rw [step, hfetch]

/-- Settles O23: each store is a `writeWord` at its address, and the fetch after it reads that word. -/
theorem nextFetchSeesStore : Obligations.NextFetchSeesStore := by
  intro s t a sr i hstore hexec hpc
  have ht : t = s.writeWord a (s.reg sr) := by
    rcases hstore with ⟨off9, rfl, rfl⟩ | ⟨off9, rfl, rfl⟩ | ⟨baseR, off6, rfl, rfl⟩
    · cases hexec; rfl
    · cases hexec; rfl
    · cases hexec; rfl
  rw [ht, hpc]
  exact step_writeWord_pc s (s.reg sr)

/-! ### The words of the stores (30_encoding.md R72) -/

theorem decode_of_st {ir : Word} (h : opcodeField ir = 0b0011) : decode ir = .st (drField ir) (off9Field ir) := by
  simp [decode, h]

theorem decode_of_sti {ir : Word} (h : opcodeField ir = 0b1011) : decode ir = .sti (drField ir) (off9Field ir) := by
  simp [decode, h]

theorem decode_of_str {ir : Word} (h : opcodeField ir = 0b0111) :
    decode ir = .str (drField ir) (sr1Field ir) (off6Field ir) := by
  simp [decode, h]

/-! ### Every other step leaves the memory -/

/-- No service writes memory (20_memory.md R65). -/
theorem ServiceDid.keepsMem {o : Option TrapService} {s t : State} (h : ServiceDid o s t) : KeepsMem s t := by
  rcases o with _ | _ | _ | _ | _ | _
  case none => obtain rfl : t = _ := h; exact fun _ => rfl
  case some.getc => obtain ⟨b, _, _, _, _, _, _, hmem⟩ := h; exact hmem
  case some.out => obtain ⟨bs, rfl⟩ := h; exact fun _ => rfl
  case some.puts => obtain ⟨bs, rfl⟩ := h; exact fun _ => rfl
  case some.inp => obtain ⟨b, _, _, _, _, _, _, hmem⟩ := h; exact hmem
  case some.halt => obtain rfl : t = _ := h; exact fun _ => rfl

/-- Only the stores write memory (20_memory.md R65). -/
theorem OpClass.Did.keepsMem {c : OpClass} {ir : Word} {s t : State} (h : c.Did ir s t) (hc : c ≠ .store) :
    KeepsMem s t := by
  cases c
  case result => obtain ⟨v, rfl⟩ := h; exact fun _ => rfl
  case jump => obtain ⟨a, rfl⟩ := h; exact fun _ => rfl
  case call => obtain ⟨a, rfl⟩ := h; exact fun _ => rfl
  case store => exact absurd rfl hc
  case nothing => obtain rfl : t = s := h; exact fun _ => rfl
  case trap => exact ServiceDid.keepsMem h

theorem classOf_ne_store {op : BitVec 4} (h : op ∉ [0b0011#4, 0b1011#4, 0b0111#4]) : classOf op ≠ .store := by
  have hstore : ¬ (op = 0b0011 ∨ op = 0b1011 ∨ op = 0b0111) := by simpa using h
  unfold classOf
  rw [if_neg hstore]
  split_ifs <;> nofun

/-- Settles O37: a step of another class leaves the memory, and each store is a `writeWord` at its own address. -/
theorem onlyStoresChangeMemory : Obligations.OnlyStoresChangeMemory := by
  intro s t hstep
  have hexec : exec (decode (s.readWord s.pc)) s.advance = .next t := hstep
  refine ⟨fun hop => ?_, fun hop => ?_, fun hop => ?_, fun hop => ?_⟩
  · exact (step_did hstep rfl).keepsMem (classOf_ne_store hop)
  · rw [decode_of_st hop] at hexec
    cases hexec
    exact keepsMemBut_writeWord s.advance _ _
  · rw [decode_of_sti hop] at hexec
    cases hexec
    exact keepsMemBut_writeWord s.advance _ _
  · rw [decode_of_str hop] at hexec
    cases hexec
    exact keepsMemBut_writeWord s.advance _ _

end Sys2Proof.Machine
end

section
/-! PROOFS. The decoder and the encoder undo each other up to the spelling of a shared word and the ignored bits of a word
(30_encoding.md R75 to R91; log 8, log 9, log 11). -/

namespace Sys2Proof.Machine

/-! ### The decoder at each opcode (30_encoding.md R72); the stores' are `decode_of_st`, `decode_of_sti` and `decode_of_str` -/

section
variable {ir : Word}

theorem decode_of_br (h : opcodeField ir = 0b0000) : decode ir = decodeBr (nzpField ir) (off9Field ir) := by
  simp [decode, h]

theorem decode_of_add (h : opcodeField ir = 0b0001) :
    decode ir = if immBit ir then .addImm (drField ir) (sr1Field ir) (imm5Field ir)
      else .addReg (drField ir) (sr1Field ir) (sr2Field ir) := by
  simp [decode, h]

theorem decode_of_ld (h : opcodeField ir = 0b0010) : decode ir = .ld (drField ir) (off9Field ir) := by
  simp [decode, h]

theorem decode_of_call (h : opcodeField ir = 0b0100) :
    decode ir = if jsrBit ir then .jsr (off11Field ir) else .jsrr (sr1Field ir) := by
  simp [decode, h]

theorem decode_of_and (h : opcodeField ir = 0b0101) :
    decode ir = if immBit ir then .andImm (drField ir) (sr1Field ir) (imm5Field ir)
      else .andReg (drField ir) (sr1Field ir) (sr2Field ir) := by
  simp [decode, h]

theorem decode_of_ldr (h : opcodeField ir = 0b0110) :
    decode ir = .ldr (drField ir) (sr1Field ir) (off6Field ir) := by
  simp [decode, h]

theorem decode_of_rti (h : opcodeField ir = 0b1000) : decode ir = .rti := by
  simp [decode, h]

theorem decode_of_not (h : opcodeField ir = 0b1001) : decode ir = .not (drField ir) (sr1Field ir) := by
  simp [decode, h]

theorem decode_of_ldi (h : opcodeField ir = 0b1010) : decode ir = .ldi (drField ir) (off9Field ir) := by
  simp [decode, h]

theorem decode_of_jmp (h : opcodeField ir = 0b1100) : decode ir = decodeJmp (sr1Field ir) := by
  simp [decode, h]

theorem decode_of_reserved (h : opcodeField ir = 0b1101) : decode ir = .reserved := by
  simp [decode, h]

theorem decode_of_lea (h : opcodeField ir = 0b1110) : decode ir = .lea (drField ir) (off9Field ir) := by
  simp [decode, h]

theorem decode_of_trap (h : opcodeField ir = 0b1111) : decode ir = decodeTrap (vect8Field ir) := by
  simp [decode, h]

end

/-! ### Decoding an encoded instruction -/

/-- A packed word has the fields it was packed from, so its opcode's line of the decoder gives the instruction back, in the
spelling of its word. -/
theorem decode_encode (i : Instr) : decode (encode i) = i.decodedSpelling := by
  cases i
  case addReg | addImm => simp [encode, decode_of_add, Instr.decodedSpelling]
  case andReg | andImm => simp [encode, decode_of_and, Instr.decodedSpelling]
  case not => simp [encode, decode_of_not, Instr.decodedSpelling]
  case br | brn | brz | brp | brnz | brnp | brzp | brnzp | brNone =>
    simp [encode, decode_of_br, decodeBr, Instr.decodedSpelling]
  case jmp | ret => simp [encode, decode_of_jmp, decodeJmp, Instr.decodedSpelling]
  case jsr | jsrr => simp [encode, decode_of_call, jsrBit_packRegs, Instr.decodedSpelling]
  case ld => simp [encode, decode_of_ld, Instr.decodedSpelling]
  case ldi => simp [encode, decode_of_ldi, Instr.decodedSpelling]
  case ldr => simp [encode, decode_of_ldr, Instr.decodedSpelling]
  case lea => simp [encode, decode_of_lea, Instr.decodedSpelling]
  case st => simp [encode, decode_of_st, Instr.decodedSpelling]
  case sti => simp [encode, decode_of_sti, Instr.decodedSpelling]
  case str => simp [encode, decode_of_str, Instr.decodedSpelling]
  case rti => simp [encode, decode_of_rti, Instr.decodedSpelling]
  case reserved => simp [encode, decode_of_reserved, Instr.decodedSpelling]
  case trap | getc | out | puts | inp | putsp | halt =>
    simp [encode, decode_of_trap, decodeTrap, Instr.decodedSpelling]

theorem decodeJmp_of_ne {baseR : Reg} (h : baseR ≠ 7) : decodeJmp baseR = .jmp baseR := if_neg h

theorem eq_of_hasMnemonic {v : Vec8} (h : v.hasMnemonic = true) :
    v = 0x20 ∨ v = 0x21 ∨ v = 0x22 ∨ v = 0x23 ∨ v = 0x24 ∨ v = 0x25 := by
  simpa [Vec8.hasMnemonic, or_assoc] using h

theorem decodeTrap_of_not_hasMnemonic {v : Vec8} (h : v.hasMnemonic = false) : decodeTrap v = .trap v := by
  simp only [Vec8.hasMnemonic, Bool.or_eq_false_iff, beq_eq_false_iff_ne, and_assoc] at h
  obtain ⟨h20, h21, h22, h23, h24, h25⟩ := h
  simp only [decodeTrap, if_neg h20, if_neg h21, if_neg h22, if_neg h23, if_neg h24, if_neg h25]

/-- A well-formed term is the spelling of its word. -/
theorem decodedSpelling_of_wellFormed {i : Instr} (h : i.WellFormed = true) : i.decodedSpelling = i := by
  cases i
  case br => cases h
  case jmp => exact decodeJmp_of_ne (by simpa [Instr.WellFormed] using h)
  case trap => exact decodeTrap_of_not_hasMnemonic (by simpa [Instr.WellFormed] using h)
  all_goals rfl

/-- Settles O2. -/
theorem decodeInvertsEncode : Obligations.DecodeInvertsEncode :=
  fun i h => (decode_encode i).trans (decodedSpelling_of_wellFormed h)

/-! ### The decoder gives well-formed terms -/

theorem wellFormed_decodeBr (mask : BitVec 3) (off9 : Off9) : (decodeBr mask off9).WellFormed = true := by
  unfold decodeBr
  split_ifs <;> rfl

theorem wellFormed_decodeJmp (baseR : Reg) : (decodeJmp baseR).WellFormed = true := by
  unfold decodeJmp
  split_ifs with h7
  · rfl
  · simpa [Instr.WellFormed] using h7

theorem wellFormed_decodeTrap (v : Vec8) : (decodeTrap v).WellFormed = true := by
  cases h : v.hasMnemonic
  · rw [decodeTrap_of_not_hasMnemonic h]
    simp [Instr.WellFormed, h]
  · rcases eq_of_hasMnemonic h with rfl | rfl | rfl | rfl | rfl | rfl <;> rfl

theorem wellFormed_decode (ir : Word) : (decode ir).WellFormed = true := by
  have hd := decodedAs_decode ir
  generalize decode ir = i at hd ⊢
  cases hd
  case br => exact wellFormed_decodeBr _ _
  case jmp => exact wellFormed_decodeJmp _
  case trap => exact wellFormed_decodeTrap _
  all_goals rfl

/-! ### A word is packed from its fields (30_encoding.md R74) -/

section
variable {op : BitVec 4} {ir : Word}

theorem packRegs_fields (h : opcodeField ir = op) : packRegs op (drField ir) (sr1Field ir) (off6Field ir) = ir := by
  subst h
  simp only [packRegs, opcodeField, drField, sr1Field, off6Field,
    BitVec.extractLsb'_append_extractLsb'_eq_extractLsb', field_whole]

theorem packOff9_fields (h : opcodeField ir = op) : packOff9 op (drField ir) (off9Field ir) = ir := by
  subst h
  simp only [packOff9, opcodeField, drField, off9Field,
    BitVec.extractLsb'_append_extractLsb'_eq_extractLsb', field_whole]

theorem packOff11_fields (h : opcodeField ir = op) : packOff11 op (ir.extractLsb' 11 1) (off11Field ir) = ir := by
  subst h
  simp only [packOff11, opcodeField, off11Field,
    BitVec.extractLsb'_append_extractLsb'_eq_extractLsb', field_whole]

theorem append_vect8Field (h : opcodeField ir = op) : op ++ ir.extractLsb' 8 4 ++ vect8Field ir = ir := by
  subst h
  simp only [opcodeField, vect8Field, BitVec.extractLsb'_append_extractLsb'_eq_extractLsb', field_whole]

theorem append_extractLsb'_of_opcode (h : opcodeField ir = op) : op ++ ir.extractLsb' 0 12 = ir := by
  subst h
  simp only [opcodeField, BitVec.extractLsb'_append_extractLsb'_eq_extractLsb', field_whole]

end

/-! ### Masking a packed word masks its fields -/

section
variable (op op' : BitVec 4) (hi hi' lo lo' : BitVec 3) (low low' : BitVec 6)

theorem packRegs_and : packRegs op hi lo low &&& packRegs op' hi' lo' low' =
    packRegs (op &&& op') (hi &&& hi') (lo &&& lo') (low &&& low') := by
  refine BitVec.and_append.trans ?_
  rw [BitVec.and_append, BitVec.and_append]
  rfl

theorem packRegs_or : packRegs op hi lo low ||| packRegs op' hi' lo' low' =
    packRegs (op ||| op') (hi ||| hi') (lo ||| lo') (low ||| low') := by
  refine BitVec.or_append.trans ?_
  rw [BitVec.or_append, BitVec.or_append]
  rfl

/-- The mask of format OPR keeps the mode bit and SR2 of the low bits (R75). -/
theorem packRegs_and_opr : packRegs op hi lo low &&& 0xFFE7 = packRegs op hi lo (low &&& 0b100111) :=
  (packRegs_and op (.allOnes 4) hi (.allOnes 3) lo (.allOnes 3) low 0b100111).trans
    (by simp only [BitVec.and_allOnes])

/-- The mask of formats JMP and JSRR keeps the base register (R79, R81). -/
theorem packRegs_and_base : packRegs op hi lo low &&& 0xF1C0 = packRegs op 0b000#3 lo 0b000000#6 :=
  (packRegs_and op (.allOnes 4) hi 0#3 lo (.allOnes 3) low 0#6).trans
    (by simp only [BitVec.and_allOnes, BitVec.and_zero])

/-- Format NOT sets the low bits (R77). -/
theorem packRegs_or_not : packRegs op hi lo low ||| 0x003F = packRegs op hi lo 0b111111 :=
  (packRegs_or op 0#4 hi 0#3 lo 0#3 low (.allOnes 6)).trans
    ((by simp only [BitVec.or_allOnes, BitVec.or_zero]) : _ = packRegs op hi lo (.allOnes 6))

/-- The mask of format TRAP keeps the vector (R84). -/
theorem append_and_trap (dots : BitVec 4) (vect8 : Vec8) :
    (op ++ dots ++ vect8 : Word) &&& 0xF0FF = packVect8 op vect8 := by
  have hmask : (op ++ dots ++ vect8) &&& (BitVec.allOnes 4 ++ 0#4 ++ BitVec.allOnes 8) = op ++ 0#4 ++ vect8 := by
    simp only [BitVec.and_append, BitVec.and_allOnes, BitVec.and_zero]
  exact hmask

/-- The mask of formats RTI and RSVD keeps the opcode alone (R85, R86). -/
theorem append_and_opcode (dots : BitVec 12) : (op ++ dots : Word) &&& 0xF000 = packOpcode op := by
  have hmask : (op ++ dots) &&& (BitVec.allOnes 4 ++ 0#12) = op ++ 0#12 := by
    simp only [BitVec.and_append, BitVec.and_allOnes, BitVec.and_zero]
  exact hmask

end

/-! ### The word packed from what the decoder keeps of a word, per format -/

section
variable {op : BitVec 4} {ir : Word}

theorem immBit_eq_off6Field : immBit ir = (off6Field ir).getLsbD 5 := by
  simp [immBit, off6Field]

theorem sr2Field_eq_off6Field : sr2Field ir = (off6Field ir).extractLsb' 0 3 := by
  ext i hi
  simp [sr2Field, off6Field]

theorem imm5Field_eq_off6Field : imm5Field ir = (off6Field ir).extractLsb' 0 5 := by
  ext i hi
  simp [imm5Field, off6Field]

theorem packRegs_of_reg (h : opcodeField ir = op) (hm : immBit ir = false) :
    packRegs op (drField ir) (sr1Field ir) (0b000#3 ++ sr2Field ir) = ir &&& 0xFFE7 := by
  have hlow : ∀ low : BitVec 6, low.getLsbD 5 = false → low &&& 0b100111 = 0b000#3 ++ low.extractLsb' 0 3 := by decide
  conv_rhs => rw [← packRegs_fields h, packRegs_and_opr, hlow _ (immBit_eq_off6Field ▸ hm)]
  rw [sr2Field_eq_off6Field]

theorem packRegs_of_imm (h : opcodeField ir = op) (hm : immBit ir = true) :
    packRegs op (drField ir) (sr1Field ir) (0b1#1 ++ imm5Field ir) = ir := by
  have hlow : ∀ low : BitVec 6, low.getLsbD 5 = true → 0b1#1 ++ low.extractLsb' 0 5 = low := by decide
  rw [imm5Field_eq_off6Field, hlow _ (immBit_eq_off6Field ▸ hm), packRegs_fields h]

theorem packRegs_of_base (h : opcodeField ir = op) : packRegs op 0b000#3 (sr1Field ir) 0b000000#6 = ir &&& 0xF1C0 := by
  conv_rhs => rw [← packRegs_fields h, packRegs_and_base]

theorem packRegs_of_not (h : opcodeField ir = op) :
    packRegs op (drField ir) (sr1Field ir) 0b111111 = ir ||| 0x003F := by
  conv_rhs => rw [← packRegs_fields h, packRegs_or_not]

theorem packOff11_of_jsr (h : opcodeField ir = op) (hm : jsrBit ir = true) : packOff11 op 0b1#1 (off11Field ir) = ir := by
  have hmode : ir.extractLsb' 11 1 = 0b1#1 := by
    ext i hi
    obtain rfl : i = 0 := by omega
    simpa [jsrBit] using hm
  rw [← hmode, packOff11_fields h]

theorem packVect8_of_trap (h : opcodeField ir = op) : packVect8 op (vect8Field ir) = ir &&& 0xF0FF := by
  conv_rhs => rw [← append_vect8Field h, append_and_trap]

theorem packOpcode_of_opcode (h : opcodeField ir = op) : packOpcode op = ir &&& 0xF000 := by
  conv_rhs => rw [← append_extractLsb'_of_opcode h, append_and_opcode]

end

/-! ### Encoding a decoded word -/

theorem mask_cases (mask : BitVec 3) : mask = 0b000 ∨ mask = 0b001 ∨ mask = 0b010 ∨ mask = 0b011 ∨
    mask = 0b100 ∨ mask = 0b101 ∨ mask = 0b110 ∨ mask = 0b111 := by
  bv_omega

theorem encode_decodeBr (mask : BitVec 3) (off9 : Off9) : encode (decodeBr mask off9) = packOff9 0b0000 mask off9 := by
  rcases mask_cases mask with rfl | rfl | rfl | rfl | rfl | rfl | rfl | rfl <;> rfl

theorem encode_decodeJmp (baseR : Reg) : encode (decodeJmp baseR) = packRegs 0b1100 0b000 baseR 0b000000 := by
  unfold decodeJmp
  split_ifs with h7
  · rw [h7]; rfl
  · rfl

theorem encode_decodeTrap (v : Vec8) : encode (decodeTrap v) = packVect8 0b1111 v := by
  cases h : v.hasMnemonic
  · rw [decodeTrap_of_not_hasMnemonic h]
    rfl
  · rcases eq_of_hasMnemonic h with rfl | rfl | rfl | rfl | rfl | rfl <;> rfl

/-- The mask of BR lies where DR does (R74). -/
theorem nzpField_eq_drField (ir : Word) : nzpField ir = drField ir := rfl

/-- `canonicalWord` through the names of the fields it reads. -/
theorem canonicalWord_eq (ir : Word) : canonicalWord ir =
    if (opcodeField ir = 0b0001 ∨ opcodeField ir = 0b0101) ∧ immBit ir = false then ir &&& 0xFFE7
    else if opcodeField ir = 0b0100 ∧ jsrBit ir = false then ir &&& 0xF1C0
    else if opcodeField ir = 0b1000 ∨ opcodeField ir = 0b1101 then ir &&& 0xF000
    else if opcodeField ir = 0b1001 then ir ||| 0x003F
    else if opcodeField ir = 0b1100 then ir &&& 0xF1C0
    else if opcodeField ir = 0b1111 then ir &&& 0xF0FF
    else ir := rfl

/-- Opcode by opcode, the encoder packs the fields the decoder kept. -/
theorem encode_decode (ir : Word) : encode (decode ir) = canonicalWord ir := by
  rcases opcode_cases (opcodeField ir) with h | h | h | h | h | h | h | h | h | h | h | h | h | h | h | h
  · simpa [decode_of_br h, encode_decodeBr, nzpField_eq_drField, canonicalWord_eq, h] using packOff9_fields h
  · cases hm : immBit ir
    · simpa [decode_of_add h, encode, canonicalWord_eq, h, hm] using packRegs_of_reg h hm
    · simpa [decode_of_add h, encode, canonicalWord_eq, h, hm] using packRegs_of_imm h hm
  · simpa [decode_of_ld h, encode, canonicalWord_eq, h] using packOff9_fields h
  · simpa [decode_of_st h, encode, canonicalWord_eq, h] using packOff9_fields h
  · cases hm : jsrBit ir
    · simpa [decode_of_call h, encode, canonicalWord_eq, h, hm] using packRegs_of_base h
    · simpa [decode_of_call h, encode, canonicalWord_eq, h, hm] using packOff11_of_jsr h hm
  · cases hm : immBit ir
    · simpa [decode_of_and h, encode, canonicalWord_eq, h, hm] using packRegs_of_reg h hm
    · simpa [decode_of_and h, encode, canonicalWord_eq, h, hm] using packRegs_of_imm h hm
  · simpa [decode_of_ldr h, encode, canonicalWord_eq, h] using packRegs_fields h
  · simpa [decode_of_str h, encode, canonicalWord_eq, h] using packRegs_fields h
  · simpa [decode_of_rti h, encode, canonicalWord_eq, h] using packOpcode_of_opcode h
  · simpa [decode_of_not h, encode, canonicalWord_eq, h] using packRegs_of_not h
  · simpa [decode_of_ldi h, encode, canonicalWord_eq, h] using packOff9_fields h
  · simpa [decode_of_sti h, encode, canonicalWord_eq, h] using packOff9_fields h
  · simpa [decode_of_jmp h, encode_decodeJmp, canonicalWord_eq, h] using packRegs_of_base h
  · simpa [decode_of_reserved h, encode, canonicalWord_eq, h] using packOpcode_of_opcode h
  · simpa [decode_of_lea h, encode, canonicalWord_eq, h] using packOff9_fields h
  · simpa [decode_of_trap h, encode_decodeTrap, canonicalWord_eq, h] using packVect8_of_trap h

/-- The ignored bits do not count: the canonical word is an encoding of the same well-formed term. -/
theorem decode_canonicalWord (ir : Word) : decode (canonicalWord ir) = decode ir :=
  encode_decode ir ▸ decodeInvertsEncode (decode ir) (wellFormed_decode ir)

/-- Settles O3. -/
theorem ignoredBitsCarryNothing : Obligations.IgnoredBitsCarryNothing :=
  ⟨fun ir => ⟨wellFormed_decode ir, encode_decode ir⟩,
    fun ir ir' h => (decode_canonicalWord ir).symm.trans ((congrArg decode h).trans (decode_canonicalWord ir'))⟩

end Sys2Proof.Machine
end

section
/-! PROOFS. The tokens of a literal and of a register operand: which characters are digits, and the number a run of digits stands
for (40_encoder.md R115, R116, R120). -/

namespace Sys2Proof.Asm

/-! ### Digits -/

theorem toNat_decChar (d : Fin 10) : (decChar d).toNat = 48 + d.val := by
  revert d; decide

theorem toNat_hexChar (d : Fin 16) : (hexChar d).toNat = if d.val < 10 then 48 + d.val else 55 + d.val := by
  revert d; decide

theorem digitValue_eq_some (c : Char) (v : Nat) : digitValue c = some v ↔ ∃ d : Fin 10, c = decChar d ∧ v = d.val := by
  have hrange : '0' ≤ c ∧ c ≤ '9' ↔ 48 ≤ c.toNat ∧ c.toNat ≤ 57 := Iff.rfl
  simp only [digitValue, hrange, Option.ite_none_right_eq_some, Option.some.injEq, ← Char.toNat_inj, toNat_decChar]
  constructor
  · rintro ⟨⟨hlo, hhi⟩, rfl⟩
    exact ⟨⟨c.toNat - 48, by omega⟩, by simp; omega, rfl⟩
  · rintro ⟨d, hc, rfl⟩
    exact ⟨by omega, by simp [hc]⟩

theorem hexValue_eq_some (c : Char) (v : Nat) : hexValue c = some v ↔ ∃ d : Fin 16, c = hexChar d ∧ v = d.val := by
  have hrange : 'A' ≤ c ∧ c ≤ 'F' ↔ 65 ≤ c.toNat ∧ c.toNat ≤ 70 := Iff.rfl
  simp only [hexValue, hrange, ← Char.toNat_inj, toNat_hexChar]
  split_ifs with hletter
  · constructor
    · intro h
      obtain rfl : c.toNat - 65 + 10 = v := Option.some.inj h
      exact ⟨⟨c.toNat - 65 + 10, by omega⟩, by simp; omega, rfl⟩
    · rintro ⟨d, hc, rfl⟩
      split_ifs at hc
      · omega
      · exact congrArg some (by simp [hc]; omega)
  · rw [digitValue_eq_some]
    constructor
    · rintro ⟨d, rfl, rfl⟩
      exact ⟨d.castLE (by omega), by simp [toNat_decChar], rfl⟩
    · rintro ⟨d, hc, rfl⟩
      split_ifs at hc with hd
      · exact ⟨⟨d.val, hd⟩, Char.toNat_inj.mp (by rw [hc, toNat_decChar]), rfl⟩
      · omega

/-- The characters of a base read as the digits they stand for. -/
def ReadsDigits {base : Nat} (value : Char → Option Nat) (char : Fin base → Char) : Prop :=
  ∀ c v, value c = some v ↔ ∃ d, c = char d ∧ v = d.val

theorem digitsFrom_eq_some {base : Nat} {value : Char → Option Nat} {char : Fin base → Char} (h : ReadsDigits value char)
    (acc : Nat) (t : Text) (v : Nat) : digitsFrom base value acc t = some v ↔
      ∃ ds : List (Fin base), t = ds.map char ∧ v = ds.foldl (fun v d => v * base + d.val) acc := by
  induction t generalizing acc with
  | nil => simp [digitsFrom, eq_comm]
  | cons c t ih =>
    constructor
    · intro hv
      unfold digitsFrom at hv
      split at hv
      · cases hv
      · next d hd =>
        obtain ⟨k, rfl, rfl⟩ := (h c d).mp hd
        obtain ⟨ds, rfl, rfl⟩ := (ih _).mp hv
        exact ⟨k :: ds, rfl, rfl⟩
    · rintro ⟨ds, ht, rfl⟩
      obtain ⟨k, ds, rfl, rfl, rfl⟩ := List.map_eq_cons_iff.mp ht.symm
      simp only [digitsFrom, (h (char k) k.val).mpr ⟨k, rfl, rfl⟩]
      exact (ih _).mpr ⟨ds, rfl, rfl⟩

/-- A run of digits is one or more digit characters, and its value is theirs. -/
theorem digits_eq_some {base : Nat} {value : Char → Option Nat} {char : Fin base → Char} (h : ReadsDigits value char)
    (t : Text) (v : Nat) : digits base value t = some v ↔
      ∃ ds : List (Fin base), ds ≠ [] ∧ t = ds.map char ∧ v = digitsValue ds := by
  unfold digits
  cases t with
  | nil => simp [eq_comm]
  | cons c t =>
    refine (digitsFrom_eq_some h 0 (c :: t) v).trans ⟨?_, ?_⟩
    · rintro ⟨ds, ht, hv⟩
      have hne : ds ≠ [] := fun hds => by simp [hds] at ht
      exact ⟨ds, hne, ht, hv⟩
    · rintro ⟨ds, _, ht, hv⟩
      exact ⟨ds, ht, hv⟩

/-! ### Literals (R116) -/

/-- A form of literal: a run of digits, its value as an integer under `f`. -/
theorem map_digits_eq_some {base : Nat} {value : Char → Option Nat} {char : Fin base → Char} (h : ReadsDigits value char)
    {f : Int → Int} {t : Text} {v : Int} :
    ((do let n ← digits base value t; pure (n : Int)) : Option Int).map f = some v ↔
      ∃ ds : List (Fin base), ds ≠ [] ∧ t = ds.map char ∧ v = f (digitsValue ds) := by
  have hmap : ((do let n ← digits base value t; pure (n : Int)) : Option Int).map f = some v ↔
      ∃ n, digits base value t = some n ∧ v = f n := by
    cases digits base value t <;> simp [eq_comm]
  simp only [hmap, digits_eq_some h]
  constructor
  · rintro ⟨_, ⟨ds, hne, ht, rfl⟩, hv⟩
    exact ⟨ds, hne, ht, hv⟩
  · rintro ⟨ds, hne, ht, hv⟩
    exact ⟨_, ⟨ds, hne, ht, rfl⟩, hv⟩

theorem decimal_eq_some {f : Int → Int} {t : Text} {v : Int} :
    ((do let n ← digits 10 digitValue t; pure (n : Int)) : Option Int).map f = some v ↔
      ∃ ds : List (Fin 10), ds ≠ [] ∧ t = ds.map decChar ∧ v = f (digitsValue ds) :=
  map_digits_eq_some digitValue_eq_some

theorem hexadecimal_eq_some {f : Int → Int} {t : Text} {v : Int} :
    ((do let n ← digits 16 hexValue t; pure (n : Int)) : Option Int).map f = some v ↔
      ∃ hs : List (Fin 16), hs ≠ [] ∧ t = hs.map hexChar ∧ v = f (digitsValue hs) :=
  map_digits_eq_some hexValue_eq_some

/-- No digit is one of the characters that begin another form of literal. -/
theorem decChar_ne_mark (d : Fin 10) : decChar d ≠ '#' ∧ decChar d ≠ '-' ∧ decChar d ≠ '+' ∧ decChar d ≠ 'X' := by
  revert d; decide

/-- Without a mark a token is read as bare decimal digits. -/
theorem literal_decimal {ds : List (Fin 10)} (h : ds ≠ []) : literal (ds.map decChar) = some (digitsValue ds : Int) := by
  have hds := (decimal_eq_some (f := fun n => n)).mpr ⟨ds, h, rfl, rfl⟩
  obtain ⟨d, ds, rfl⟩ := List.exists_cons_of_ne_nil h
  obtain ⟨hhash, _, _, hx⟩ := decChar_ne_mark d
  rw [← hds, List.map_cons]
  simp [literal, hhash, hx]

/-- After `#` a token without a sign is read as decimal digits. -/
theorem literal_hash_decimal {ds : List (Fin 10)} (h : ds ≠ []) :
    literal ('#' :: ds.map decChar) = some (digitsValue ds : Int) := by
  have hds := (decimal_eq_some (f := fun n => n)).mpr ⟨ds, h, rfl, rfl⟩
  obtain ⟨d, ds, rfl⟩ := List.exists_cons_of_ne_nil h
  obtain ⟨_, hminus, hplus, _⟩ := decChar_ne_mark d
  rw [← hds, List.map_cons]
  simp [literal, hminus, hplus]

/-- Settles O47: forward by the branches of the parser, backward by one equation per form. -/
theorem literalFormsAndValues : Obligations.LiteralFormsAndValues := by
  refine fun t v => ⟨fun h => ?_, ?_⟩
  · unfold literal at h
    split at h
    case h_1 =>
      obtain ⟨ds, hne, rfl, rfl⟩ := decimal_eq_some.mp h
      exact .inl ⟨ds, hne, .inr (.inr (.inl ⟨rfl, rfl⟩))⟩
    case h_2 =>
      obtain ⟨ds, hne, rfl, rfl⟩ := decimal_eq_some.mp h
      exact .inl ⟨ds, hne, .inr (.inl ⟨rfl, rfl⟩)⟩
    case h_3 =>
      obtain ⟨ds, hne, rfl, rfl⟩ := decimal_eq_some.mp h
      exact .inl ⟨ds, hne, .inl ⟨rfl, rfl⟩⟩
    case h_4 =>
      obtain ⟨hs, hne, rfl, rfl⟩ := hexadecimal_eq_some.mp h
      exact .inr ⟨hs, hne, rfl, rfl⟩
    case h_5 =>
      obtain ⟨ds, hne, rfl, rfl⟩ := decimal_eq_some.mp h
      exact .inl ⟨ds, hne, .inr (.inr (.inr ⟨rfl, rfl⟩))⟩
  · rintro (⟨ds, hne, ⟨rfl, rfl⟩ | ⟨rfl, rfl⟩ | ⟨rfl, rfl⟩ | ⟨rfl, rfl⟩⟩ | ⟨hs, hne, rfl, rfl⟩)
    · exact literal_hash_decimal hne
    · exact decimal_eq_some.mpr ⟨ds, hne, rfl, rfl⟩
    · exact decimal_eq_some.mpr ⟨ds, hne, rfl, rfl⟩
    · exact literal_decimal hne
    · exact hexadecimal_eq_some.mpr ⟨hs, hne, rfl, rfl⟩

/-! ### Register operands (R115, R120) -/

theorem regField_decChar (d : Fin 10) : regField ['R', decChar d] =
    if d.val ≤ 7 then .ok (BitVec.ofNat 3 d.val) else .error (.recoverable .invalidRegister) := by
  simp only [regField, (digitValue_eq_some (decChar d) d.val).mpr ⟨d, rfl, rfl⟩]

/-- A token that is a register field is `R` and a digit 0 to 7; every other one has the one failure. -/
theorem regField_cases (t : Text) :
    (∃ d : Fin 8, t = ['R', decChar ⟨d.val, by omega⟩]) ∨ regField t = .error (.recoverable .invalidRegister) := by
  unfold regField
  split
  · next c =>
    split
    · next n hn =>
      obtain ⟨d, rfl, rfl⟩ := (digitValue_eq_some c n).mp hn
      split_ifs with hle
      · exact .inl ⟨⟨d.val, by omega⟩, rfl⟩
      · exact .inr rfl
    · exact .inr rfl
  · exact .inr rfl

theorem all_digits_iff (t : Text) :
    (t.all fun c => (digitValue c).isSome) = true ↔ ∃ ds : List (Fin 10), t = ds.map decChar := by
  have hdigit (c : Char) : (digitValue c).isSome = true ↔ c ∈ Set.range decChar := by
    simp only [Option.isSome_iff_exists, digitValue_eq_some, Set.mem_range]
    exact ⟨fun ⟨_, d, hc, _⟩ => ⟨d, hc.symm⟩, fun ⟨d, hc⟩ => ⟨d.val, d, hc.symm, rfl⟩⟩
  have hrange : (∀ c ∈ t, c ∈ Set.range decChar) ↔ t ∈ Set.range (List.map decChar) := by
    rw [Set.range_list_map]
    rfl
  simp only [List.all_eq_true, hdigit, eq_comm (a := t)]
  exact hrange

/-- Settles O46. -/
theorem registerOperandIsItsDigit : Obligations.RegisterOperandIsItsDigit := by
  refine ⟨fun d => ?_, fun t ht => ?_, fun t => ?_⟩
  · rw [regField_decChar, if_pos (Nat.le_of_lt_succ d.isLt)]
    exact congrArg Except.ok (BitVec.eq_of_toNat_eq (by simp))
  · rcases regField_cases t with ⟨d, hd⟩ | h
    · exact absurd hd (ht d)
    · exact h
  · unfold isRegToken
    split
    · next ds =>
      rw [Bool.and_eq_true, all_digits_iff]
      constructor
      · rintro ⟨hne, ds, rfl⟩
        exact ⟨ds, by rintro rfl; simp at hne, rfl⟩
      · rintro ⟨ks, hne, hks⟩
        obtain rfl : ds = ks.map decChar := List.tail_eq_of_cons_eq hks
        exact ⟨by simpa using hne, ks, rfl⟩
    · next hR => exact iff_of_false (by simp) fun ⟨ds, _, ht⟩ => hR _ ht

end Sys2Proof.Asm
end

section
/-! PROOFS. One operation to its word: the fields at their places in the word, the operands as a chain of fields, the formats of the
mnemonics and the failures (40_encoder.md R113, R118 to R138, R143 to R145). -/

namespace Sys2Proof.Asm

/-! ### A packed word is its fields at their places -/

theorem place_zero (w : Word) : place 0 w = w := by
  simp [place]

theorem place_of_zero (lo n : Nat) : place lo (0#n) = 0#16 := by
  simp [place]

/-- A concatenation at a place is its two parts, each at its own. -/
theorem place_append {n m : Nat} (lo : Nat) (x : BitVec n) (f : BitVec m) :
    place lo (x ++ f) = place (m + lo) x ||| place lo f := by
  refine BitVec.eq_of_getLsbD_eq fun i hi => ?_
  simp only [place, BitVec.getLsbD_or, BitVec.getLsbD_shiftLeft, BitVec.getLsbD_setWidth, BitVec.getLsbD_append, hi]
  by_cases hlo : i < lo
  · simp [hlo, Nat.lt_add_left m hlo]
  · by_cases hm : i < m + lo
    · have : i - lo < m := by omega
      simp [hlo, hm, this]
    · have h1 : ¬ i - lo < m := by omega
      have h2 : i - (m + lo) = i - lo - m := by omega
      have h3 : i - lo - m < 16 := by omega
      have hf : f.getLsbD (i - lo) = false := BitVec.getLsbD_of_ge f _ (by omega)
      have h4 : i - lo < 16 := by omega
      simp [hlo, hm, h1, h2, h3, h4, hf]

/-- A field of width N at the low end of a word reads back from its low N bits. -/
theorem low_place_zero {n : Nat} (h : n ≤ 16) (f : BitVec n) : (place 0 f).extractLsb' 0 n = f := by
  refine BitVec.eq_of_getLsbD_eq fun i hi => ?_
  have : i < 16 := by omega
  simp [place, hi, this]

/-- A field above bit N leaves the low N bits clear. -/
theorem low_place_above {n lo m : Nat} (h : n ≤ lo) (f : BitVec m) : (place lo f).extractLsb' 0 n = 0 := by
  refine BitVec.eq_of_getLsbD_eq fun i hi => ?_
  have : i < lo := by omega
  simp [place, hi, this]

/-! ### The operands, as a chain of fields from left to right -/

section
variable (P : Params) (sym : SymTab) (addr : Word)

theorem map_eq_bind {ε α β : Type} (f : α → β) (x : Except ε α) : x.map f = (do return f (← x)) :=
  (bind_pure_comp f x).symm

@[simp] theorem operandBits_reg (lo : Nat) (t : Text) :
    operandBits P sym addr (.reg lo) t = (do return place lo (← regField t)) := map_eq_bind ..

theorem operandBits_regImm5_of_register {t : Text} (h : isRegToken t = true) :
    operandBits P sym addr .regImm5 t = (do return place 0 (← regField t)) :=
  (if_pos h).trans (map_eq_bind ..)

theorem operandBits_regImm5_of_literal {t : Text} (h : ¬ isRegToken t = true) :
    operandBits P sym addr .regImm5 t = (do return 0x0020 ||| place 0 (← literalField 5 t)) :=
  (if_neg h).trans (map_eq_bind ..)

@[simp] theorem operandBits_pcRel9 (t : Text) : operandBits P sym addr .pcRel9 t =
    (do return place 0 (← labelField 9 P.pcrelAcceptsLiteral sym addr t)) := map_eq_bind ..

@[simp] theorem operandBits_pcRel11 (t : Text) : operandBits P sym addr .pcRel11 t =
    (do return place 0 (← labelField 11 P.pcrelAcceptsLiteral sym addr t)) := map_eq_bind ..

@[simp] theorem operandBits_off6 (t : Text) : operandBits P sym addr .off6 t = (do return place 0 (← literalField 6 t)) :=
  map_eq_bind ..

@[simp] theorem operandBits_trapVect8 (t : Text) : operandBits P sym addr .trapVect8 t = (do return place 0 (← vectField t)) :=
  map_eq_bind ..

@[simp] theorem encodeOperands_nil (w : Word) (ts : List Text) : encodeOperands P sym addr w [] ts = pure w := rfl

@[simp] theorem encodeOperands_cons (w : Word) (kind : OperandKind) (kinds : List OperandKind) (t : Text) (ts : List Text) :
    encodeOperands P sym addr w (kind :: kinds) (t :: ts) = (do
      let bits ← operandBits P sym addr kind t
      encodeOperands P sym addr (w ||| bits) kinds ts) := by
  rw [encodeOperands]
  cases operandBits P sym addr kind t <;> rfl

theorem encodeOperation_of_entry {name : Text} {e : MnemonicEntry} (h : P.entry name = some e) (ops : List Text) :
    encodeOperation P sym addr name ops =
      if ops.length = e.operands.length then encodeOperands P sym addr e.fixed e.operands ops
      else .error .fatalArityMismatch := by
  simp only [encodeOperation, h]

/-- With the operands its mnemonic takes, a record is encoded from the fixed bits by its operands. -/
theorem encodeOperation_of_arity {name : Text} {fixed : Word} {kinds : List OperandKind}
    (h : P.entry name = some ⟨name, fixed, kinds⟩) {ops : List Text} (hlen : ops.length = kinds.length) :
    encodeOperation P sym addr name ops = encodeOperands P sym addr fixed kinds ops :=
  (encodeOperation_of_entry P sym addr h ops).trans (if_pos hlen)

theorem encodeOperation_of_alias {name : Text} {v : Vec8} (h : P.entry name = none) (hv : P.aliasVector name = some v)
    (ops : List Text) : encodeOperation P sym addr name ops =
      if ops.isEmpty then .ok (0xF000 ||| place 0 v) else .error .fatalArityMismatch := by
  simp only [encodeOperation, h, hv]

end

/-! ### The formats, as the fixed bits and the fields the operands put on them (30_encoding.md R75 to R84) -/

section
variable (op : BitVec 4) (hi lo : Reg)

theorem format_pcrel (f : Off9) : op ++ hi ++ f = place 12 op ||| place 9 hi ||| place 0 f := by
  rw [← place_zero (op ++ hi ++ f), place_append, place_append]

theorem format_base (f : Off6) : op ++ hi ++ lo ++ f = place 12 op ||| place 9 hi ||| place 6 lo ||| place 0 f := by
  rw [← place_zero (op ++ hi ++ lo ++ f), place_append, place_append, place_append]

theorem format_opr (sr2 : Reg) :
    op ++ hi ++ lo ++ 0b0#1 ++ 0b00#2 ++ sr2 = place 12 op ||| place 9 hi ||| place 6 lo ||| place 0 sr2 := by
  rw [← place_zero (op ++ hi ++ lo ++ 0b0#1 ++ 0b00#2 ++ sr2)]
  simp only [place_append, place_of_zero, BitVec.or_zero]

theorem format_opi (f : Imm5) :
    op ++ hi ++ lo ++ 0b1#1 ++ f = place 12 op ||| place 9 hi ||| place 6 lo ||| (0x0020 ||| place 0 f) := by
  rw [← place_zero (op ++ hi ++ lo ++ 0b1#1 ++ f)]
  simp only [place_append, BitVec.or_assoc]
  rfl

/-- The fixed bits of NOT stand first, its two registers after them. -/
theorem format_not : op ++ hi ++ lo ++ 0b111111#6 = place 12 op ||| place 0 0b111111#6 ||| place 9 hi ||| place 6 lo := by
  rw [format_base]
  ac_rfl

theorem format_jmp : op ++ 0b000#3 ++ lo ++ 0b000000#6 = place 12 op ||| place 6 lo := by
  simp only [format_base, place_of_zero, BitVec.or_zero]

theorem format_jsr (f : Off11) : op ++ 0b1#1 ++ f = place 12 op ||| place 11 0b1#1 ||| place 0 f := by
  rw [← place_zero (op ++ 0b1#1 ++ f), place_append, place_append]

theorem format_jsrr : op ++ 0b0#1 ++ 0b00#2 ++ lo ++ 0b000000#6 = place 12 op ||| place 6 lo := by
  rw [← place_zero (op ++ 0b0#1 ++ 0b00#2 ++ lo ++ 0b000000#6)]
  simp only [place_append, place_of_zero, BitVec.or_zero]

theorem format_trap (v : Vec8) : op ++ 0b0000#4 ++ v = place 12 op ||| place 0 v := by
  rw [← place_zero (op ++ 0b0000#4 ++ v)]
  simp only [place_append, place_of_zero, BitVec.or_zero]

end

/-! ### The mnemonics that share a format -/

section
variable (sym : SymTab) (addr : Word) {name : Text} {op : BitVec 4}

theorem encode_add_and (h : Params.entry {} name = some ⟨name, place 12 op, [.reg 9, .reg 6, .regImm5]⟩) (t1 t2 t3 : Text) :
    encodeOperation {} sym addr name [t1, t2, t3] = (do
      let d ← regField t1
      let a ← regField t2
      if isRegToken t3 then return op ++ d ++ a ++ 0b0#1 ++ 0b00#2 ++ (← regField t3)
      else return op ++ d ++ a ++ 0b1#1 ++ (← literalField 5 t3)) := by
  rw [encodeOperation_of_arity _ _ _ h rfl]
  by_cases hreg : isRegToken t3 = true
  · simp [operandBits_regImm5_of_register, hreg, format_opr]
  · simp [operandBits_regImm5_of_literal, hreg, format_opi]

theorem encode_branch {mask : BitVec 3}
    (h : Params.entry {} name = some ⟨name, place 12 op ||| place 9 mask, [.pcRel9]⟩) (t : Text) :
    encodeOperation {} sym addr name [t] = (do return op ++ mask ++ (← labelField 9 false sym addr t)) := by
  rw [encodeOperation_of_arity _ _ _ h rfl]
  simp [Config.pcrelAcceptsLiteral, format_pcrel]

theorem encode_pcrel (h : Params.entry {} name = some ⟨name, place 12 op, [.reg 9, .pcRel9]⟩) (t1 t2 : Text) :
    encodeOperation {} sym addr name [t1, t2] = (do
      return op ++ (← regField t1) ++ (← labelField 9 false sym addr t2)) := by
  rw [encodeOperation_of_arity _ _ _ h rfl]
  simp [Config.pcrelAcceptsLiteral, format_pcrel]

theorem encode_base (h : Params.entry {} name = some ⟨name, place 12 op, [.reg 9, .reg 6, .off6]⟩) (t1 t2 t3 : Text) :
    encodeOperation {} sym addr name [t1, t2, t3] = (do
      return op ++ (← regField t1) ++ (← regField t2) ++ (← literalField 6 t3)) := by
  rw [encodeOperation_of_arity _ _ _ h rfl]
  simp [format_base]

end

/-- What holds of every row of a list of pairs holds of a pair in it. -/
theorem of_row {α β : Type} {rows : List (α × β)} {p : α → β → Prop} (h : ∀ row ∈ rows, p row.1 row.2) {a : α} {b : β}
    (hrow : (a, b) ∈ rows) : p a b := h (a, b) hrow

/-- Settles O50. -/
theorem assembleOperate : Obligations.AssembleOperate := by
  refine fun sym addr t1 t2 t3 => ⟨encode_add_and sym addr rfl t1 t2 t3, encode_add_and sym addr rfl t1 t2 t3, ?_⟩
  have hentry : Params.entry {} ['N', 'O', 'T'] = some ⟨_, place 12 0b1001#4 ||| place 0 0b111111#6, [.reg 9, .reg 6]⟩ := rfl
  rw [encodeOperation_of_arity _ _ _ hentry rfl]
  simp only [encodeOperands_cons, encodeOperands_nil, operandBits_reg, bind_assoc, pure_bind, format_not]

/-- Settles O51. -/
theorem assembleBranches : Obligations.AssembleBranches :=
  fun sym addr t _ _ hrow => encode_branch sym addr (of_row
    (p := fun name mask => Params.entry {} name = some ⟨name, place 12 0b0000#4 ||| place 9 mask, [.pcRel9]⟩) (by decide) hrow) t

/-- Settles O52. -/
theorem assembleJumpsCallsTraps : Obligations.AssembleJumpsCallsTraps := by
  refine fun sym addr t => ⟨?_, ?_, ?_, ?_⟩
  · have hentry : Params.entry {} ['J', 'M', 'P'] = some ⟨_, place 12 0b1100#4, [.reg 6]⟩ := rfl
    rw [encodeOperation_of_arity _ _ _ hentry rfl]
    simp only [encodeOperands_cons, encodeOperands_nil, operandBits_reg, bind_assoc, pure_bind, format_jmp]
  · have hentry : Params.entry {} ['J', 'S', 'R'] = some ⟨_, place 12 0b0100#4 ||| place 11 0b1#1, [.pcRel11]⟩ := rfl
    rw [encodeOperation_of_arity _ _ _ hentry rfl]
    simp only [encodeOperands_cons, encodeOperands_nil, operandBits_pcRel11, bind_assoc, pure_bind, format_jsr]
    rfl
  · have hentry : Params.entry {} ['J', 'S', 'R', 'R'] = some ⟨_, place 12 0b0100#4, [.reg 6]⟩ := rfl
    rw [encodeOperation_of_arity _ _ _ hentry rfl]
    simp only [encodeOperands_cons, encodeOperands_nil, operandBits_reg, bind_assoc, pure_bind, format_jsrr]
  · have hentry : Params.entry {} ['T', 'R', 'A', 'P'] = some ⟨_, place 12 0b1111#4, [.trapVect8]⟩ := rfl
    rw [encodeOperation_of_arity _ _ _ hentry rfl]
    simp only [encodeOperands_cons, encodeOperands_nil, operandBits_trapVect8, bind_assoc, pure_bind, format_trap]

/-- Settles O53. -/
theorem assembleLoadsStores : Obligations.AssembleLoadsStores := by
  refine fun sym addr t1 t2 t3 => ⟨fun name op hrow => encode_pcrel sym addr ?_ t1 t2, encode_base sym addr rfl t1 t2 t3,
    encode_base sym addr rfl t1 t2 t3⟩
  exact of_row (p := fun name op => Params.entry {} name = some ⟨name, place 12 op, [.reg 9, .pcRel9]⟩) (by decide) hrow

/-- Settles O54. -/
theorem assembleWithoutOperands : Obligations.AssembleWithoutOperands := by
  refine ⟨fun rti sym addr => ⟨rfl, rfl⟩, rfl, fun sym addr ops name w hrow => ?_⟩
  obtain ⟨hentry, halias, hword⟩ := of_row (p := fun name w => Params.entry {} name = none ∧
    Params.aliasVector {} name = some (vect8Field w) ∧ 0xF000 ||| place 0 (vect8Field w) = w) (by decide) hrow
  rw [encodeOperation_of_alias _ _ _ hentry halias, hword]
  simp only [List.isEmpty_iff]

end Sys2Proof.Asm
end

section
/-! PROOFS. How an operation fails: the arity first and fatally, an operand recoverably (40_encoder.md R113, R143, R144). -/

namespace Sys2Proof.Asm

/-- A result, or a failure of the kind that ends a pass and not the run (40_encoder.md R143). -/
inductive OkOrRecoverable {α : Type} : Except Failure α → Prop
  | ok (a : α) : OkOrRecoverable (.ok a)
  | recoverable (kind : RecoverableKind) : OkOrRecoverable (.error (.recoverable kind))

theorem OkOrRecoverable.bind {α β : Type} {x : Except Failure α} {f : α → Except Failure β} (hx : OkOrRecoverable x)
    (hf : ∀ a, OkOrRecoverable (f a)) : OkOrRecoverable (x >>= f) := by
  cases hx with
  | ok a => exact hf a
  | recoverable kind => exact .recoverable kind

theorem OkOrRecoverable.ne_fatal {α : Type} {x : Except Failure α} (h : OkOrRecoverable x) :
    x ≠ .error .fatalArityMismatch := by
  rintro rfl
  cases h

theorem OkOrRecoverable.ne_outsideContract {α : Type} {x : Except Failure α} (h : OkOrRecoverable x) :
    x ≠ .error .outsideContract := by
  rintro rfl
  cases h

/-! ### The operands -/

theorem regField_okOrRecoverable (t : Text) : OkOrRecoverable (regField t) := by
  rcases regField_cases t with ⟨d, rfl⟩ | h
  · rw [regField_decChar, if_pos (Nat.le_of_lt_succ d.isLt)]
    exact .ok _
  · exact h ▸ .recoverable _

theorem signedField_okOrRecoverable (n : Nat) (v : Int) : OkOrRecoverable (signedField n v) := by
  unfold signedField
  split_ifs
  · exact .ok _
  · exact .recoverable _

theorem literalField_okOrRecoverable (n : Nat) (t : Text) : OkOrRecoverable (literalField n t) := by
  unfold literalField
  split
  · exact .recoverable _
  · exact signedField_okOrRecoverable n _

theorem labelField_okOrRecoverable (n : Nat) (acceptsLiteral : Bool) (sym : SymTab) (addr : Word) (t : Text) :
    OkOrRecoverable (labelField n acceptsLiteral sym addr t) := by
  unfold labelField
  split
  · exact signedField_okOrRecoverable n _
  · split
    · exact signedField_okOrRecoverable n _
    · exact .recoverable _

theorem vectField_okOrRecoverable (t : Text) : OkOrRecoverable (vectField t) := by
  unfold vectField
  split
  · exact .recoverable _
  · split_ifs
    · exact .ok _
    · exact .recoverable _

section
variable (P : Params) (sym : SymTab) (addr : Word)

theorem operandBits_okOrRecoverable (kind : OperandKind) (t : Text) :
    OkOrRecoverable (operandBits P sym addr kind t) := by
  cases kind with
  | reg lo => exact operandBits_reg .. ▸ (regField_okOrRecoverable t).bind fun _ => .ok _
  | regImm5 =>
    by_cases h : isRegToken t = true
    · exact operandBits_regImm5_of_register P sym addr h ▸ (regField_okOrRecoverable t).bind fun _ => .ok _
    · exact operandBits_regImm5_of_literal P sym addr h ▸ (literalField_okOrRecoverable 5 t).bind fun _ => .ok _
  | pcRel9 => exact operandBits_pcRel9 .. ▸ (labelField_okOrRecoverable ..).bind fun _ => .ok _
  | pcRel11 => exact operandBits_pcRel11 .. ▸ (labelField_okOrRecoverable ..).bind fun _ => .ok _
  | off6 => exact operandBits_off6 .. ▸ (literalField_okOrRecoverable 6 t).bind fun _ => .ok _
  | trapVect8 => exact operandBits_trapVect8 .. ▸ (vectField_okOrRecoverable t).bind fun _ => .ok _

theorem encodeOperands_okOrRecoverable (w : Word) (kinds : List OperandKind) (ts : List Text) :
    OkOrRecoverable (encodeOperands P sym addr w kinds ts) := by
  induction kinds generalizing w ts with
  | nil => exact .ok w
  | cons kind kinds ih =>
    cases ts with
    | nil => exact .ok w
    | cons t ts =>
      rw [encodeOperands_cons]
      exact (operandBits_okOrRecoverable P sym addr kind t).bind fun bits => ih (w ||| bits) ts

end

/-- Settles O55: the arity is checked before any operand, and no operand fails fatally. -/
theorem arityMismatchIsTheFatalFailure : Obligations.ArityMismatchIsTheFatalFailure := by
  intro P sym addr name ops e hentry
  rw [encodeOperation_of_entry P sym addr hentry]
  split_ifs with hlen
  · have hok := encodeOperands_okOrRecoverable P sym addr e.fixed e.operands ops
    exact ⟨iff_of_false hok.ne_fatal (not_not.mpr hlen), hok.ne_outsideContract⟩
  · exact ⟨iff_of_true rfl hlen, by simp⟩

end Sys2Proof.Asm
end

section
/-! PROOFS. A label operand is the offset of its label, and the core's address is the label's (40_encoder.md R118, 30_encoding.md
R87, R91; the offset arithmetic is the spec's decision D36). -/

namespace Sys2Proof.Asm

/-! ### The field of a label -/

section
variable {n : Nat} {acceptsLiteral : Bool} {sym : SymTab} (addr : Word) {t : Text}

theorem labelField_of_found {a : Word} (h : sym.find t = some a) :
    labelField n acceptsLiteral sym addr t = signedField n ((a.toNat : Int) - ((addr.toNat : Int) + 1)) := by
  simp only [labelField, h]

theorem labelField_of_unresolved (h : sym.find t = none) (hl : acceptsLiteral = false ∨ literal t = none) :
    labelField n acceptsLiteral sym addr t = .error (.recoverable .unresolvedLabel) := by
  rcases hl with hl | hl
  · simp [labelField, h, hl]
  · simp [labelField, h, hl]

theorem labelField_of_literal {v : Int} (h : sym.find t = none) (ha : acceptsLiteral = true) (hl : literal t = some v) :
    labelField n acceptsLiteral sym addr t = signedField n v := by
  simp [labelField, h, ha, hl]

end

theorem toInt_of_signedField {n : Nat} (hn : 0 < n) {v : Int} {f : BitVec n} (h : signedField n v = .ok f) : f.toInt = v := by
  by_cases hv : fitsSigned n v = true
  · obtain rfl : twosComplement n v = f := Except.ok.inj ((signedField_of_fits hv).symm.trans h)
    exact toInt_twosComplement_of_fitsSigned hn hv
  · exact absurd (h.symm.trans (signedField_of_not_fits hv)) nofun

/-- The offset of a label, added to the address after the instruction, is the label's address. -/
theorem target_of_labelField {n : Nat} (hn : 0 < n) {acceptsLiteral : Bool} {sym : SymTab} {addr a : Word} {t : Text}
    (hfind : sym.find t = some a) {f : BitVec n} (h : labelField n acceptsLiteral sym addr t = .ok f) :
    addr + 1 + f.signExtend 16 = a := by
  have hf : f.toInt = (a.toNat : Int) - ((addr.toNat : Int) + 1) :=
    toInt_of_signedField hn ((labelField_of_found addr hfind).symm.trans h)
  rw [BitVec.signExtend, hf]
  refine BitVec.eq_of_toNat_eq ?_
  simp only [BitVec.toNat_add, BitVec.toNat_ofInt, show BitVec.toNat (1 : Word) = 1 from rfl]
  have := a.isLt
  have := addr.isLt
  omega

/-! ### The word of an instruction whose last operand is a label -/

section
variable {P : Params} {sym : SymTab} {addr : Word}

theorem bind_eq_ok {ε α β : Type} {x : Except ε α} {f : α → Except ε β} {b : β} :
    x >>= f = .ok b ↔ ∃ a, x = .ok a ∧ f a = .ok b := by
  cases x with
  | error e => exact iff_of_false nofun nofun
  | ok a => exact ⟨fun h => ⟨a, rfl, h⟩, fun ⟨_, ha, h⟩ => Except.ok.inj ha ▸ h⟩

/-- Registers placed above bit N leave the low N bits of the word as they are. -/
theorem low_encodeOperands {n : Nat} {w w' : Word} {kinds : List OperandKind} {ts : List Text}
    (hkinds : ∀ kind ∈ kinds, ∃ lo, kind = .reg lo ∧ n ≤ lo) (h : encodeOperands P sym addr w kinds ts = .ok w') :
    w'.extractLsb' 0 n = w.extractLsb' 0 n := by
  induction kinds generalizing w ts with
  | nil => cases h; rfl
  | cons kind kinds ih =>
    obtain ⟨⟨lo, rfl, hlo⟩, hrest⟩ := List.forall_mem_cons.mp hkinds
    cases ts with
    | nil => cases h; rfl
    | cons t ts =>
      rw [encodeOperands_cons, operandBits_reg, bind_assoc] at h
      obtain ⟨r, _, h⟩ := bind_eq_ok.mp h
      rw [pure_bind] at h
      rw [ih hrest h, BitVec.extractLsb'_or, low_place_above hlo]
      exact BitVec.or_zero

theorem encodeOperands_concat (w : Word) {kinds : List OperandKind} {ts : List Text} (hlen : ts.length = kinds.length)
    (kind : OperandKind) (t : Text) : encodeOperands P sym addr w (kinds ++ [kind]) (ts ++ [t]) = (do
      let w' ← encodeOperands P sym addr w kinds ts
      return w' ||| (← operandBits P sym addr kind t)) := by
  induction kinds generalizing w ts with
  | nil =>
    obtain rfl := List.length_eq_zero_iff.mp hlen
    simp
  | cons k kinds ih =>
    obtain ⟨u, ts, rfl⟩ := List.exists_cons_of_length_eq_add_one hlen
    have hlen : ts.length = kinds.length := Nat.succ.inj hlen
    simp [ih _ hlen]

/-- A PC-relative instruction: the word's low bits are the offset of its last operand, the label. -/
theorem target_of_encodeOperands {n : Nat} (hn : 0 < n) (hn' : n ≤ 16) {kind : OperandKind}
    (hkind : ∀ t, operandBits P sym addr kind t = (do return place 0 (← labelField n P.pcrelAcceptsLiteral sym addr t)))
    {w w' a : Word} {kinds : List OperandKind} {ts : List Text} {label : Text} (hlen : ts.length = kinds.length)
    (hw : w.extractLsb' 0 n = 0) (hkinds : ∀ kind ∈ kinds, ∃ lo, kind = .reg lo ∧ n ≤ lo) (hfind : sym.find label = some a)
    (h : encodeOperands P sym addr w (kinds ++ [kind]) (ts ++ [label]) = .ok w') :
    addr + 1 + (w'.extractLsb' 0 n).signExtend 16 = a := by
  rw [encodeOperands_concat w hlen, hkind] at h
  obtain ⟨u, hregs, h⟩ := bind_eq_ok.mp h
  obtain ⟨bits, hbits, h⟩ := bind_eq_ok.mp h
  obtain ⟨f, hlabel, hf⟩ := bind_eq_ok.mp hbits
  obtain rfl : place 0 f = bits := Except.ok.inj hf
  obtain rfl : u ||| place 0 f = w' := Except.ok.inj h
  have hlow : (u ||| place 0 f).extractLsb' 0 n = f := by
    rw [BitVec.extractLsb'_or, low_encodeOperands hkinds hregs, hw, low_place_zero hn']
    exact BitVec.zero_or
  rw [hlow]
  exact target_of_labelField hn hfind hlabel

end

/-! ### The mnemonic table -/

theorem mnemonicTable_names_nodup (rtiWord : Word) : ((mnemonicTable rtiWord).map (·.name)).Nodup := by
  have hnames : (mnemonicTable rtiWord).map (·.name) = (mnemonicTable 0).map (·.name) := rfl
  rw [hnames]
  decide

/-- In the default table every entry is the entry of its name. -/
theorem entry_of_mem {P : Params} {e : MnemonicEntry} (hP : P.mnemonics = mnemonicTable P.rtiWord)
    (he : e ∈ mnemonicTable P.rtiWord) : P.entry e.name = some e := by
  obtain ⟨before, after, htable⟩ := List.append_of_mem he
  have hnodup := mnemonicTable_names_nodup P.rtiWord
  rw [Params.entry, hP, List.find?_eq_some_iff_append]
  refine ⟨by simp, before, after, htable, fun d hd => ?_⟩
  rw [htable, List.map_append, List.map_cons, List.nodup_append] at hnodup
  have hne : d.name ≠ e.name := by
    obtain ⟨_, _, hdisjoint⟩ := hnodup
    exact hdisjoint d.name (List.mem_map_of_mem hd) e.name List.mem_cons_self
  simpa using hne

/-- An entry that ends in a label of N bits keeps the low N bits for it: they are clear in the fixed bits, and its other operands are
registers above them. -/
def KeepsLowBits (kind : OperandKind) (n : Nat) (e : MnemonicEntry) : Prop :=
  e.operands.getLast? = some kind →
    e.fixed.extractLsb' 0 n = 0 ∧ ∀ k ∈ e.operands.dropLast, ∃ lo, k = .reg lo ∧ n ≤ lo

theorem mnemonicTable_keepsLowBits (rtiWord : Word) :
    ∀ e ∈ mnemonicTable rtiWord, KeepsLowBits .pcRel9 9 e ∧ KeepsLowBits .pcRel11 11 e := by
  simp [mnemonicTable, KeepsLowBits]

/-- Settles O49. -/
theorem labelOperandReachesItsLabel : Obligations.LabelOperandReachesItsLabel := by
  refine ⟨fun n acceptsLiteral sym addr t => ⟨fun a => labelField_of_found addr, labelField_of_unresolved addr,
    fun v => labelField_of_literal addr⟩, fun P sym addr a w e ops label hP he hfind hencode => ?_⟩
  obtain ⟨hlow9, hlow11⟩ := mnemonicTable_keepsLowBits P.rtiWord e he
  rw [encodeOperation_of_entry P sym addr (entry_of_mem hP he)] at hencode
  split_ifs at hencode with hlen
  have hreach {kind : OperandKind} {n : Nat} (hn : 0 < n) (hn' : n ≤ 16) (hlow : KeepsLowBits kind n e)
      (hkind : ∀ t, operandBits P sym addr kind t = (do return place 0 (← labelField n P.pcrelAcceptsLiteral sym addr t)))
      (hlast : e.operands.getLast? = some kind) : addr + 1 + (w.extractLsb' 0 n).signExtend 16 = a := by
    obtain ⟨hfixed, hkinds⟩ := hlow hlast
    obtain ⟨kinds, hoperands⟩ := List.getLast?_eq_some_iff.mp hlast
    rw [hoperands] at hencode hlen
    rw [hoperands, List.dropLast_concat] at hkinds
    exact target_of_encodeOperands hn hn' hkind (by simpa using hlen) hfixed hkinds hfind hencode
  exact ⟨hreach (by omega) (by omega) hlow9 (operandBits_pcRel9 P sym addr),
    hreach (by omega) (by omega) hlow11 (operandBits_pcRel11 P sym addr)⟩

end Sys2Proof.Asm
end

section
/-! PROOFS. The normal form of a line (40_encoder.md R100; one space per separator is the spec's decision D35, letters beyond ASCII
log 15). -/

namespace Sys2Proof.Asm

/-! ### Characters -/

theorem isSeparator_iff (c : Char) : isSeparator c = true ↔ c ∈ [',', '\t', '\r', '\x0c', '\x0b'] := by
  simp [isSeparator, or_assoc]

/-- A character with a meaning of its own to the normalizer. -/
def IsMark (c : Char) : Prop := c = ';' ∨ isSeparator c = true ∨ c.isWhitespace = true

theorem not_isMark_of_isUpper {c : Char} (h : c.isUpper = true) : ¬ IsMark c := by
  rintro (rfl | hsep | hspace)
  · exact absurd h (by decide)
  · have hne : ∀ m ∈ [',', '\t', '\r', '\x0c', '\x0b'], m.isUpper ≠ true := by simp
    exact hne c ((isSeparator_iff c).mp hsep) h
  · have hc : c ∈ [' ', '\t', '\r', '\n'] := by simpa [Char.isWhitespace, or_assoc] using hspace
    have hne : ∀ m ∈ [' ', '\t', '\r', '\n'], m.isUpper ≠ true := by simp
    exact hne c hc h

/-- Upper-casing makes an upper-case letter of a letter, and leaves every other character. -/
theorem isUpper_toUpper_or (c : Char) : c.toUpper.isUpper = true ∨ c.toUpper = c := by
  by_cases h : c.isLower = true
  · exact .inl (by simp [Char.isAlpha, h])
  · exact .inr (Char.toUpper_eq_of_not_isLower h)

/-! ### Trimming -/

/-- The line neither begins nor ends with whitespace. -/
def TrimmedEnds (l : Text) : Prop := ∀ c, l.head? = some c ∨ l.getLast? = some c → c.isWhitespace = false

theorem trim_eq_rdropWhile (l : Text) : trim l = (l.dropWhile Char.isWhitespace).rdropWhile Char.isWhitespace := rfl

/-- Trimming takes whitespace from the two ends and nothing else. -/
theorem exists_eq_append_trim (l : Text) :
    ∃ lead trail, l = lead ++ trim l ++ trail ∧ ∀ c ∈ lead ++ trail, c.isWhitespace = true := by
  refine ⟨l.takeWhile Char.isWhitespace, (l.dropWhile Char.isWhitespace).rtakeWhile Char.isWhitespace, ?_, fun c hc => ?_⟩
  · rw [trim_eq_rdropWhile, List.append_assoc, List.rdropWhile_append_rtakeWhile, List.takeWhile_append_dropWhile]
  · rcases List.mem_append.mp hc with hc | hc
    · exact List.mem_takeWhile_imp hc
    · exact List.mem_rtakeWhile_imp hc

theorem mem_of_mem_trim {l : Text} {c : Char} (h : c ∈ trim l) : c ∈ l := by
  obtain ⟨lead, trail, hl, _⟩ := exists_eq_append_trim l
  rw [hl]
  simp [h]

theorem trimmedEnds_trim (l : Text) : TrimmedEnds (trim l) := by
  rintro c (h | h)
  · obtain ⟨trail, htrail⟩ := List.rdropWhile_prefix Char.isWhitespace (l := l.dropWhile Char.isWhitespace)
    have hhead : (l.dropWhile Char.isWhitespace).head? = some c := by
      rw [← htrail, ← trim_eq_rdropWhile, List.head?_append, h]
      rfl
    have hnot := List.head?_dropWhile_not Char.isWhitespace l
    rwa [hhead] at hnot
  · have hne : trim l ≠ [] := fun hnil => by simp [hnil] at h
    obtain rfl : (trim l).getLast hne = c := Option.some.inj ((List.getLast?_eq_some_getLast hne).symm.trans h)
    exact Bool.eq_false_iff.mpr (List.rdropWhile_last_not Char.isWhitespace _ hne)

theorem trim_of_trimmedEnds {l : Text} (h : TrimmedEnds l) : trim l = l := by
  have hhead : l.dropWhile Char.isWhitespace = l := by
    cases l with
    | nil => rfl
    | cons c l => exact List.dropWhile_cons_of_neg (by simp [h c (.inl rfl)])
  rw [trim_eq_rdropWhile, hhead, List.rdropWhile_eq_self_iff]
  exact fun hl => by simp [h _ (.inr (List.getLast?_eq_some_getLast hl))]

theorem trimmedEnds_map_toUpper {l : Text} (h : TrimmedEnds l) : TrimmedEnds (l.map Char.toUpper) := by
  have hkeep {c : Char} (hc : c.isWhitespace = false) : c.toUpper.isWhitespace = false := by
    rcases isUpper_toUpper_or c with hu | he
    · exact Bool.eq_false_iff.mpr fun hs => not_isMark_of_isUpper hu (.inr (.inr hs))
    · exact he.symm ▸ hc
  intro c hc
  rw [List.head?_map, List.getLast?_map, Option.map_eq_some_iff, Option.map_eq_some_iff] at hc
  rcases hc with ⟨d, hd, rfl⟩ | ⟨d, hd, rfl⟩
  · exact hkeep (h d (.inl hd))
  · exact hkeep (h d (.inr hd))

/-! ### The normal form -/

/-- A line is cut at its first `;`. -/
theorem exists_eq_stripComment_append (l : Text) :
    ∃ comment, l = stripComment l ++ comment ∧ (comment = [] ∨ comment.head? = some ';') := by
  refine ⟨l.dropWhile (· != ';'), List.takeWhile_append_dropWhile.symm, ?_⟩
  have hnot := List.head?_dropWhile_not (· != ';') l
  cases hc : l.dropWhile (· != ';') with
  | nil => exact .inl rfl
  | cons c rest =>
    rw [hc] at hnot
    exact .inr (congrArg some (by simpa using hnot))

theorem ne_semicolon_of_mem_stripComment {l : Text} {c : Char} (h : c ∈ stripComment l) : c ≠ ';' :=
  bne_iff_ne.mp (List.mem_takeWhile_imp (p := (· != ';')) h)

/-- The characters a normalized line holds. -/
def NormalChar (c : Char) : Prop := c ≠ ';' ∧ isSeparator c = false ∧ c.isLower = false

theorem normalChar_toUpper {c : Char} (hcomment : c ≠ ';') (hsep : isSeparator c = false) : NormalChar c.toUpper := by
  rcases isUpper_toUpper_or c with hu | hc
  · have hmark := not_isMark_of_isUpper hu
    exact ⟨fun h => hmark (.inl h), Bool.eq_false_iff.mpr fun h => hmark (.inr (.inl h)), Char.isLower_toUpper_eq_false c⟩
  · exact ⟨hc.symm ▸ hcomment, hc.symm ▸ hsep, Char.isLower_toUpper_eq_false c⟩

theorem normalChar_of_mem_normalize {l : Text} {c : Char} (h : c ∈ normalize l) : NormalChar c := by
  obtain ⟨d, hd, rfl⟩ := List.mem_map.mp h
  obtain ⟨b, hb, rfl⟩ := List.mem_map.mp (mem_of_mem_trim hd)
  split_ifs with hsep
  · exact normalChar_toUpper (by decide) (by decide)
  · exact normalChar_toUpper (ne_semicolon_of_mem_stripComment hb) (Bool.eq_false_iff.mpr hsep)

/-- A line in normal form is its own normal form. -/
theorem normalize_of_normal {l : Text} (hchar : ∀ c ∈ l, NormalChar c) (hends : TrimmedEnds l) : normalize l = l := by
  have hcomment : stripComment l = l := by
    refine List.takeWhile_eq_self_iff.mpr fun c hc => ?_
    obtain ⟨hne, _, _⟩ := hchar c hc
    exact bne_iff_ne.mpr hne
  have hspace : spaceSeparators l = l := by
    refine (List.map_congr_left fun c hc => ?_).trans (List.map_id l)
    obtain ⟨_, hsep, _⟩ := hchar c hc
    simp [hsep]
  have hupper : l.map Char.toUpper = l := by
    refine (List.map_congr_left fun c hc => ?_).trans (List.map_id l)
    obtain ⟨_, _, hlower⟩ := hchar c hc
    exact Char.toUpper_eq_of_not_isLower (by simp [hlower])
  rw [normalize, hcomment, hspace, trim_of_trimmedEnds hends, hupper]

/-- Settles O56. -/
theorem normalizerReachesNormalForm : Obligations.NormalizerReachesNormalForm := by
  refine ⟨isSeparator_iff, fun l => ?_⟩
  have hends : TrimmedEnds (normalize l) := trimmedEnds_map_toUpper (trimmedEnds_trim _)
  have hchar : ∀ c ∈ normalize l, NormalChar c := fun c => normalChar_of_mem_normalize
  have hspace : ' '.isWhitespace ≠ false := by decide
  refine ⟨?_, hchar, fun h => hspace (hends _ (.inl h)), fun h => hspace (hends _ (.inr h)), normalize_of_normal hchar hends⟩
  obtain ⟨comment, hcut, hcomment⟩ := exists_eq_stripComment_append l
  obtain ⟨lead, trail, htrim, hwhite⟩ := exists_eq_append_trim (spaceSeparators (stripComment l))
  exact ⟨stripComment l, comment, lead, trim (spaceSeparators (stripComment l)), trail, hcut,
    fun c => ne_semicolon_of_mem_stripComment, hcomment, htrim, hwhite, trimmedEnds_trim _, rfl⟩

end Sys2Proof.Asm
end

section
/-! PROOFS. The words of the directives (40_encoder.md R139, R140, R141; values below -32768 are the spec's decision D42). -/

namespace Sys2Proof.Asm

section
variable {text head : Text} {operands : List Text}

theorem renderPseudo_of_fill {v : Int} (ht : tokens text = head :: operands) (hd : directiveOf head = some .fill)
    (hv : fillValue operands = some v) : renderPseudo text = .ok [twosComplement 16 v] := by
  simp only [renderPseudo, ht, hd, hv]

theorem renderPseudo_of_blkw {n : Nat} (ht : tokens text = head :: operands) (hd : directiveOf head = some .blkw)
    (hn : blkwCount operands = some n) : renderPseudo text = .ok (List.replicate n 0) := by
  simp only [renderPseudo, ht, hd, hn]

theorem renderPseudo_of_stringz {chars : Text} (ht : tokens text = head :: operands)
    (hd : directiveOf head = some .stringz) (hq : quoted text = some chars) :
    renderPseudo text = .ok (chars.map charWord ++ [0]) := by
  simp only [renderPseudo, ht, hd, hq]

end

/-- A 16-bit field is its value modulo 2^16 (R11, R139). -/
theorem toNat_twosComplement_16 (v : Int) : ((twosComplement 16 v).toNat : Int) = v % 65536 := by
  rw [twosComplement, BitVec.toNat_ofInt]
  exact Int.toNat_of_nonneg (Int.emod_nonneg v (by decide))

theorem toNat_charWord {c : Char} (h : c.toNat < 256) : (charWord c).toNat = c.toNat := by
  simp [charWord]
  omega

/-- Settles O57. -/
theorem directivesRender : Obligations.DirectivesRender := by
  refine fun text operands => ⟨fun v ht hv => ?_, fun n ht hn => ?_, fun chars ht hq hchars => ?_⟩
  · exact ⟨_, renderPseudo_of_fill ht rfl hv, toNat_twosComplement_16 v⟩
  · exact renderPseudo_of_blkw ht rfl hn
  · refine ⟨_, renderPseudo_of_stringz ht rfl hq, ?_⟩
    rw [List.map_map]
    exact List.map_congr_left fun c hc => toNat_charWord (hchars c hc)

end Sys2Proof.Asm
end

section
/-! PROOFS. What a statement leaves of its line, and what Pass 1 does with it: every line appends at most one record, for which the
encoder has a result of the size Pass 1 counted (40_encoder.md R101 to R111). -/

namespace Sys2Proof.Asm

/-! ### Tokens (R101, R103) -/

theorem tokensFrom_space (run rest : Text) :
    tokensFrom run (' ' :: rest) = (if run.isEmpty then [] else [run.reverse]) ++ tokens rest := if_pos rfl

theorem tokensFrom_char {c : Char} (h : c ≠ ' ') (run rest : Text) :
    tokensFrom run (c :: rest) = tokensFrom (c :: run) rest := if_neg h

/-- Spaces before the first token do not matter. -/
theorem tokens_dropWhile_space (l : Text) : tokens (l.dropWhile (· == ' ')) = tokens l := by
  induction l with
  | nil => rfl
  | cons c l ih =>
    by_cases hc : c = ' '
    · subst hc
      exact ih.trans (tokensFrom_space [] l).symm
    · rw [List.dropWhile_cons_of_neg (by simpa using hc)]

/-- The current run ends at the next space; the tokens after it do not depend on it. -/
theorem tokensFrom_eq_cons {run : Text} (h : run ≠ []) (l : Text) :
    ∃ t, tokensFrom run l = t :: tokens (l.dropWhile (· != ' ')) := by
  induction l generalizing run with
  | nil => exact ⟨run.reverse, if_neg (by simpa using h)⟩
  | cons c l ih =>
    by_cases hc : c = ' '
    · subst hc
      refine ⟨run.reverse, ?_⟩
      rw [tokensFrom_space, if_neg (by simpa using h)]
      exact congrArg _ (tokensFrom_space [] l).symm
    · rw [tokensFrom_char hc, List.dropWhile_cons_of_pos (by simpa using hc)]
      exact ih (List.cons_ne_nil c run)

/-- A line after its first token has its other tokens. -/
theorem tokens_after_first (l : Text) :
    tokens ((l.dropWhile (· == ' ')).dropWhile (· != ' ')) = (tokens l).drop 1 := by
  rw [← tokens_dropWhile_space l]
  cases hl : l.dropWhile (· == ' ') with
  | nil => rfl
  | cons c rest =>
    have hc : c ≠ ' ' := by simpa [hl] using List.head?_dropWhile_not (· == ' ') l
    obtain ⟨t, ht⟩ := tokensFrom_eq_cons (List.cons_ne_nil c []) rest
    have htokens : tokens (c :: rest) = t :: tokens (rest.dropWhile (· != ' ')) := (tokensFrom_char hc [] rest).trans ht
    rw [htokens, List.dropWhile_cons_of_pos (by simpa using hc)]
    rfl

/-- What remains of a line after `n` tokens has the tokens after the first `n`. -/
theorem tokens_dropTokens (n : Nat) (l : Text) : tokens (dropTokens n l) = (tokens l).drop n := by
  induction n generalizing l with
  | zero => exact tokens_dropWhile_space l
  | succ n ih =>
    rw [dropTokens, ih, tokens_after_first, List.drop_drop, Nat.add_comm]

/-! ### The result of one record -/

/-- Under every symbol table the encoder gives the record `n` words, or one of the spec's failures. -/
def Encodes (P : Params) (r : Record) (n : Nat) : Prop :=
  ∀ sym, encodeRecord P sym r ≠ .error .outsideContract ∧ ∀ ws, encodeRecord P sym r = .ok ws → ws.length = n

theorem encodes_of_render {P : Params} {text : Text} {ws : List Word} {n : Nat} (h : renderPseudo text = .ok ws)
    (hlen : ws.length = n) (addr : Word) : Encodes P ⟨addr, text, .pseudo⟩ n := by
  intro sym
  have hrecord : encodeRecord P sym ⟨addr, text, .pseudo⟩ = .ok ws := h
  rw [hrecord]
  exact ⟨by simp, fun ws' h' => Except.ok.inj h' ▸ hlen⟩

theorem encodeOperation_ne_outsideContract {P : Params} {name : Text} (h : P.isOperation name = true) (sym : SymTab)
    (addr : Word) (ops : List Text) : encodeOperation P sym addr name ops ≠ .error .outsideContract := by
  cases he : P.entry name with
  | some e =>
    rw [encodeOperation_of_entry P sym addr he]
    split_ifs
    · exact (encodeOperands_okOrRecoverable ..).ne_outsideContract
    · simp
  | none =>
    obtain ⟨v, hv⟩ := Option.isSome_iff_exists.mp (by simpa [Params.isOperation, he] using h)
    rw [encodeOperation_of_alias P sym addr he hv]
    split_ifs
    · simp
    · simp

theorem encodes_operation {P : Params} {text name : Text} {operands : List Text} (ht : tokens text = name :: operands)
    (h : P.isOperation name = true) (addr : Word) : Encodes P ⟨addr, text, .operation⟩ 1 := by
  intro sym
  have hne := encodeOperation_ne_outsideContract h sym addr operands
  have hrecord : encodeRecord P sym ⟨addr, text, .operation⟩ = (encodeOperation P sym addr name operands).map fun w => [w] := by
    simp only [encodeRecord, ht]
  rw [hrecord]
  cases he : encodeOperation P sym addr name operands with
  | error f => exact ⟨fun hf => hne (by cases hf; exact he), nofun⟩
  | ok w => exact ⟨nofun, fun ws hws => Except.ok.inj hws ▸ rfl⟩

/-! ### One line of Pass 1 (R103 to R110) -/

/-- What a line does to the addresses and the records, once it succeeds: nothing, or it sets the origin, or it appends one record at the
current address, which moves on, by default by the record's words. -/
inductive Advance (P : Params) (p q : Pass1) : Prop
  | kept (hrecords : q.records = p.records) (hcurrent : q.current = p.current) (horigin : q.origin = p.origin)
  | setOrigin (a : Nat) (ha : a < 65536) (hunset : p.origin = none) (horigin : q.origin = some (BitVec.ofNat 16 a))
      (hcurrent : q.current = some a) (hrecords : q.records = p.records)
  | record (a n advance : Nat) (r : Record) (hat : p.current = some a) (hfits : a + n ≤ 65536)
      (haddr : r.addr = BitVec.ofNat 16 a) (hencodes : Encodes P r n)
      (hadvance : P.stringzAdvance = .countPlusOne → advance = n) (hrecords : q.records = p.records ++ [r])
      (hcurrent : q.current = some (a + advance)) (horigin : q.origin = p.origin)

/-- A line advances Pass 1 or ends it with a recoverable failure. -/
inductive LineDid (P : Params) (p : Pass1) : Except Failure Pass1 → Prop
  | next {q : Pass1} (h : Advance P p q) : LineDid P p (.ok q)
  | fails (kind : RecoverableKind) : LineDid P p (.error (.recoverable kind))

theorem Advance.of_symbols {P : Params} {p q : Pass1} {symbols : SymTab} (h : Advance P { p with symbols := symbols } q) :
    Advance P p q := by
  cases h with
  | kept hrecords hcurrent horigin => exact .kept hrecords hcurrent horigin
  | setOrigin a ha hunset horigin hcurrent hrecords => exact .setOrigin a ha hunset horigin hcurrent hrecords
  | record a n advance r hat hfits haddr hencodes hadvance hrecords hcurrent horigin =>
    exact .record a n advance r hat hfits haddr hencodes hadvance hrecords hcurrent horigin

theorem LineDid.of_symbols {P : Params} {p : Pass1} {symbols : SymTab} {x : Except Failure Pass1}
    (h : LineDid P { p with symbols := symbols } x) : LineDid P p x := by
  cases h with
  | next h => exact .next h.of_symbols
  | fails kind => exact .fails kind

/-- Binding labels touches the symbol table only. -/
theorem bindLabels_cases (p : Pass1) (labels : List Text) :
    (∃ symbols, p.bindLabels labels = .ok { p with symbols := symbols }) ∨
      ∃ kind, p.bindLabels labels = .error (.recoverable kind) := by
  induction labels generalizing p with
  | nil => exact .inl ⟨p.symbols, rfl⟩
  | cons label labels ih =>
    unfold Pass1.bindLabels
    split
    · exact .inr ⟨_, rfl⟩
    · split_ifs
      · exact .inr ⟨_, rfl⟩
      · exact ih _

section
variable {P : Params} {p : Pass1} {text head : Text} {operands : List Text}

theorem append_did {a n advance : Nat} {kind : RecordKind} (hat : p.current = some a)
    (hencodes : ∀ addr, Encodes P ⟨addr, text, kind⟩ n) (hadvance : P.stringzAdvance = .countPlusOne → advance = n) :
    LineDid P p (p.append a text kind n advance) := by
  unfold Pass1.append
  split_ifs with hpast
  · exact .fails _
  · exact .next (.record a n advance _ hat (by omega) rfl (hencodes _) hadvance rfl rfl rfl)

theorem originValue_lt {a : Nat} (h : originValue operands = some a) : a < 65536 := by
  unfold originValue at h
  split at h
  · split at h
    · split_ifs at h with hrange
      cases h
      omega
    · cases h
  · cases h

theorem setOrigin_did (P : Params) (p : Pass1) (operands : List Text) : LineDid P p (p.setOrigin operands) := by
  unfold Pass1.setOrigin
  split
  · exact .fails _
  · next hunset =>
    split
    · next a ha => exact .next (.setOrigin a (originValue_lt ha) hunset rfl rfl rfl)
    · exact .fails _

/-- A statement after the origin, by its directive. -/
theorem statement_did_of_current {a : Nat} (hat : p.current = some a) (ht : tokens text = head :: operands)
    (hknown : P.isKnown head = true) : LineDid P p (p.statement P text head operands) := by
  unfold Pass1.statement
  rw [hat]
  cases hd : directiveOf head with
  | none =>
    have hop : P.isOperation head = true := by simpa [Params.isKnown, hd] using hknown
    exact append_did hat (encodes_operation ht hop) fun _ => rfl
  | some directive =>
    cases directive with
    | orig => exact setOrigin_did P p operands
    | end_ => exact .next (.kept rfl hat.symm rfl)
    | fill =>
      cases hv : fillValue operands with
      | none => exact .fails _
      | some v => exact append_did hat (encodes_of_render (renderPseudo_of_fill ht hd hv) rfl) fun _ => rfl
    | blkw =>
      cases hn : blkwCount operands with
      | none => exact .fails _
      | some n =>
        exact append_did hat (encodes_of_render (renderPseudo_of_blkw ht hd hn) List.length_replicate) fun _ => rfl
    | stringz =>
      cases hq : quoted text with
      | none => exact .fails _
      | some chars =>
        exact append_did hat (encodes_of_render (renderPseudo_of_stringz ht hd hq) (by simp)) fun hs => by simp [hs, stringzStep]

/-- A statement before the origin. -/
theorem statement_did_of_unset (hat : p.current = none) : LineDid P p (p.statement P text head operands) := by
  unfold Pass1.statement
  rw [hat]
  split
  · exact setOrigin_did P p operands
  · exact .fails _

theorem statement_did (ht : tokens text = head :: operands) (hknown : P.isKnown head = true) :
    LineDid P p (p.statement P text head operands) := by
  cases hat : p.current with
  | none => exact statement_did_of_unset hat
  | some a => exact statement_did_of_current hat ht hknown

end

/-- The first token after a line's labels is a known head (R103). -/
theorem isKnown_of_drop_labels {P : Params} {ts : List Text} {head : Text} {operands : List Text}
    (h : ts.drop (ts.takeWhile fun t => !P.isKnown t).length = head :: operands) : P.isKnown head = true := by
  have hdrop : ts.drop (ts.takeWhile fun t => !P.isKnown t).length = ts.dropWhile fun t => !P.isKnown t := by
    conv_lhs => arg 2; rw [← List.takeWhile_append_dropWhile (p := fun t => !P.isKnown t) (l := ts)]
    exact List.drop_left
  have hnot := List.head?_dropWhile_not (fun t => !P.isKnown t) ts
  rw [← hdrop, h] at hnot
  simpa using hnot

theorem line_did (P : Params) (p : Pass1) (l : Text) : LineDid P p (p.line P l) := by
  unfold Pass1.line
  dsimp only
  rcases bindLabels_cases p ((tokens l).takeWhile fun t => !P.isKnown t) with ⟨symbols, hbound⟩ | ⟨kind, hbound⟩
  · rw [hbound]
    dsimp only
    split
    · exact .next (.kept rfl rfl rfl)
    · next hdrop => exact (statement_did ((tokens_dropTokens _ l).trans hdrop) (isKnown_of_drop_labels hdrop)).of_symbols
  · rw [hbound]
    exact .fails kind

/-! ### The whole of Pass 1 -/

/-- Pass 1 fails recoverably, or ends in a state that has every property its start has and its lines keep. -/
theorem pass1From_induction {P : Params} {I : Pass1 → Prop} (hstep : ∀ p q, I p → Advance P p q → I q) {p : Pass1} (hp : I p)
    (ls : List Text) : (∃ q, pass1From P p ls = .ok q ∧ I q) ∨ ∃ kind, pass1From P p ls = .error (.recoverable kind) := by
  induction ls generalizing p with
  | nil => exact .inl ⟨p, rfl, hp⟩
  | cons l ls ih =>
    unfold pass1From
    split_ifs
    · exact .inl ⟨p, rfl, hp⟩
    · have hline := line_did P p l
      generalize p.line P l = x at hline ⊢
      cases hline with
      | next h => exact ih (hstep p _ hp h)
      | fails kind => exact .inr ⟨kind, rfl⟩

/-- The records of Pass 1 are records the encoder has a result for. -/
def RecordsEncode (P : Params) (p : Pass1) : Prop := ∀ r ∈ p.records, ∃ n, Encodes P r n

theorem recordsEncode_of_advance {P : Params} (p q : Pass1) (hp : RecordsEncode P p) (h : Advance P p q) :
    RecordsEncode P q := by
  unfold RecordsEncode
  cases h with
  | kept hrecords => exact hrecords ▸ hp
  | setOrigin a ha hunset horigin hcurrent hrecords => exact hrecords ▸ hp
  | record a n advance r hat hfits haddr hencodes hadvance hrecords =>
    rw [hrecords, List.forall_mem_append, List.forall_mem_singleton]
    exact ⟨hp, n, hencodes⟩

theorem pass2_ne_outsideContract {P : Params} {p : Pass1} (hp : RecordsEncode P p) (sym : SymTab) :
    pass2 P sym p.records ≠ .error .outsideContract := by
  intro h
  obtain ⟨before, r, after, hrecords, hr, _⟩ := exists_first_failure h
  obtain ⟨n, hn⟩ := hp r (by simp [hrecords])
  obtain ⟨hne, _⟩ := hn sym
  exact hne hr

/-- Settles O59. -/
theorem assemblyStaysInContract : Obligations.AssemblyStaysInContract := by
  intro P source
  have hstart : RecordsEncode P Pass1.start := nofun
  unfold assemble pass1
  rcases pass1From_induction recordsEncode_of_advance hstart (source.map normalize) with ⟨p, hpass, hp⟩ | ⟨kind, hpass⟩
  · rw [hpass]
    dsimp only
    unfold Pass1.image
    split
    · next f hf =>
      rintro ⟨⟩
      exact pass2_ne_outsideContract hp p.symbols hf
    · nofun
  · rw [hpass]
    nofun

end Sys2Proof.Asm
end

section
/-! PROOFS. Reading back a written image (20_memory.md R55, 70_reset_and_hazards.md R260). -/

namespace Sys2Proof.Machine

theorem Memory.writeImage_cons (m : Memory) (a w : Word) (ws : List Word) :
    m.writeImage a (w :: ws) = (m.write a w).writeImage (a + 1) ws := rfl

/-- The word after the first `k` from `a + 1` is the one after the first `k + 1` from `a`. -/
theorem add_ofNat_succ (a : Word) (k : Nat) : a + BitVec.ofNat 16 (k + 1) = a + 1 + BitVec.ofNat 16 k := by
  rw [Nat.add_comm, BitVec.ofNat_add, BitVec.add_assoc]
  rfl

/-- Writing an image changes no word outside it. -/
theorem Memory.read_writeImage_outside (m : Memory) {a b : Word} {ws : List Word}
    (h : ∀ k < ws.length, b ≠ a + BitVec.ofNat 16 k) : (m.writeImage a ws).read b = m.read b := by
  induction ws generalizing m a with
  | nil => rfl
  | cons w ws ih =>
    have hb : b ≠ a := by simpa using h 0 (by simp)
    rw [Memory.writeImage_cons, ih, Memory.read_write_other m w hb]
    intro k hk
    rw [← add_ofNat_succ]
    exact h (k + 1) (by simpa using hk)

/-- An image of at most 65536 words is read back word for word. -/
theorem Memory.read_writeImage (m : Memory) (a : Word) {ws : List Word} (hlen : ws.length ≤ 65536) {k : Nat} {w : Word}
    (hk : ws[k]? = some w) : (m.writeImage a ws).read (a + BitVec.ofNat 16 k) = w := by
  induction ws generalizing m a k with
  | nil => cases hk
  | cons v ws ih =>
    have hlen' : ws.length + 1 ≤ 65536 := hlen
    rw [Memory.writeImage_cons]
    cases k with
    | zero =>
      obtain rfl : v = w := Option.some.inj hk
      rw [BitVec.add_zero, Memory.read_writeImage_outside, Memory.read_write_same]
      intro k hk
      bv_omega
    | succ k =>
      rw [add_ofNat_succ]
      exact ih _ _ (by omega) hk

/-- A load at the default `MEM_INIT` whose image fits gives a state, and the image is in its memory from the origin on. -/
theorem State.load_image (origin : Word) {ws : List Word} (hfits : origin.toNat + ws.length ≤ 65536)
    (regs : Option (List Int)) (input : List Byte) : ∃ s, State.load origin ws regs input = .loaded s ∧
      ∀ (k : Nat) (w : Word), ws[k]? = some w → s.readWord (origin + BitVec.ofNat 16 k) = w :=
  ⟨_, if_neg (Nat.not_lt.mpr hfits), fun _ _ hk => Memory.read_writeImage [] origin (by omega) hk⟩

end Sys2Proof.Machine
end

section
/-! PROOFS. The records of an assembly lie one after the other from the origin, as the image has their words (40_encoder.md R107 to
R111; that the addresses match is the spec's decision D32). -/

namespace Sys2Proof.Asm

/-- The records lie one after the other from address `a` to `b`, each as many words long as the encoder gives it. -/
inductive Consecutive (P : Params) : Nat → List Record → Nat → Prop
  | nil (a : Nat) : Consecutive P a [] a
  | cons {a n b : Nat} {r : Record} {rs : List Record} (haddr : r.addr = BitVec.ofNat 16 a) (hencodes : Encodes P r n)
      (hrest : Consecutive P (a + n) rs b) : Consecutive P a (r :: rs) b

theorem Consecutive.concat {P : Params} {a b n : Nat} {rs : List Record} {r : Record} (h : Consecutive P a rs b)
    (haddr : r.addr = BitVec.ofNat 16 b) (hencodes : Encodes P r n) : Consecutive P a (rs ++ [r]) (b + n) := by
  induction h with
  | nil a => exact .cons haddr hencodes (.nil _)
  | cons haddr' hencodes' _ ih => exact .cons haddr' hencodes' (ih haddr)

/-- The words of a record stand in the words of the image where its address says, the image beginning at `a`. -/
def StandsIn (P : Params) (sym : SymTab) (a : Nat) (ws : List Word) (r : Record) : Prop :=
  ∃ rws, encodeRecord P sym r = .ok rws ∧
    ∃ i, r.addr = BitVec.ofNat 16 (a + i) ∧ ∀ (k : Nat) (w : Word), rws[k]? = some w → ws[i + k]? = some w

theorem StandsIn.append {P : Params} {sym : SymTab} {a : Nat} {ws front : List Word} {r : Record}
    (h : StandsIn P sym (a + front.length) ws r) : StandsIn P sym a (front ++ ws) r := by
  obtain ⟨rws, hr, i, haddr, hws⟩ := h
  refine ⟨rws, hr, front.length + i, by rw [haddr, Nat.add_assoc], fun k w hk => ?_⟩
  rw [List.getElem?_append_right (by omega), ← hws k w hk]
  congr 1
  omega

/-- The words of consecutive records fill the addresses they lie at. -/
theorem Consecutive.words_of_pass2 {P : Params} {sym : SymTab} {a b : Nat} {rs : List Record} (h : Consecutive P a rs b)
    {ws : List Word} (hws : pass2 P sym rs = .ok ws) : a + ws.length = b ∧ ∀ r ∈ rs, StandsIn P sym a ws r := by
  induction h generalizing ws with
  | nil a => cases hws; exact ⟨rfl, nofun⟩
  | @cons a n b r rs haddr hencodes _ ih =>
    cases hr : encodeRecord P sym r with
    | error f => rw [pass2_cons_of_error rs hr] at hws; cases hws
    | ok rws =>
      rw [pass2_cons_of_ok rs hr, map_eq_bind] at hws
      obtain ⟨rest, hrest, hws⟩ := bind_eq_ok.mp hws
      obtain rfl : rws ++ rest = ws := Except.ok.inj hws
      obtain ⟨_, hlen⟩ := hencodes sym
      obtain rfl := hlen rws hr
      obtain ⟨hend, hstand⟩ := ih hrest
      have hfirst : StandsIn P sym a (rws ++ rest) r := by
        refine ⟨rws, hr, 0, haddr, fun k w hk => ?_⟩
        obtain ⟨hlt, _⟩ := List.getElem?_eq_some_iff.mp hk
        rw [Nat.zero_add, List.getElem?_append_left hlt, hk]
      exact ⟨by rw [List.length_append, ← hend, Nat.add_assoc],
        List.forall_mem_cons.mpr ⟨hfirst, fun q hq => (hstand q hq).append⟩⟩

/-- Pass 1 has no record before the origin, and after it the records reach from the origin to the current address. -/
inductive LaidOut (P : Params) (p : Pass1) : Prop
  | unset (horigin : p.origin = none) (hcurrent : p.current = none) (hrecords : p.records = [])
  | set (origin : Word) (a : Nat) (horigin : p.origin = some origin) (hcurrent : p.current = some a)
      (hrecords : Consecutive P origin.toNat p.records a) (hfits : a ≤ 65536)

theorem laidOut_of_advance {P : Params} (hP : P.stringzAdvance = .countPlusOne) (p q : Pass1) (hp : LaidOut P p)
    (h : Advance P p q) : LaidOut P q := by
  cases h with
  | kept hrecords hcurrent horigin =>
    cases hp with
    | unset ho hc hr => exact .unset (horigin.trans ho) (hcurrent.trans hc) (hrecords.trans hr)
    | set origin a ho hc hr hfits => exact .set origin a (horigin.trans ho) (hcurrent.trans hc) (hrecords ▸ hr) hfits
  | setOrigin a ha hunset horigin hcurrent hrecords =>
    cases hp with
    | set origin b ho => rw [hunset] at ho; cases ho
    | unset _ _ hr =>
      have hnat : (BitVec.ofNat 16 a).toNat = a := Nat.mod_eq_of_lt ha
      refine .set _ a horigin hcurrent ?_ (by omega)
      rw [hrecords, hr, hnat]
      exact .nil a
  | record a n advance r hat hfits haddr hencodes hadvance hrecords hcurrent horigin =>
    cases hp with
    | unset _ hc => rw [hat] at hc; cases hc
    | set origin b ho hc hr _ =>
      obtain rfl : a = b := Option.some.inj (hat.symm.trans hc)
      obtain rfl := hadvance hP
      exact .set origin _ (horigin.trans ho) hcurrent (hrecords ▸ hr.concat haddr hencodes) hfits

theorem laidOut_of_pass1 {P : Params} (hP : P.stringzAdvance = .countPlusOne) {ls : List Text} {p : Pass1}
    (h : pass1 P ls = .ok p) : LaidOut P p := by
  rcases pass1From_induction (laidOut_of_advance hP) (p := Pass1.start) (.unset rfl rfl rfl) ls with ⟨q, hq, hlaid⟩ | ⟨kind, hq⟩
  · obtain rfl : p = q := Except.ok.inj (h.symm.trans hq)
    exact hlaid
  · exact absurd (h.symm.trans hq) nofun

/-- An assembly that succeeds is Pass 1 and Pass 2 that succeed. -/
theorem assemble_eq_ok {P : Params} {source : List Text} {image : Image} (h : assemble P source = .ok image) :
    ∃ p ws, pass1 P (source.map normalize) = .ok p ∧ pass2 P p.symbols p.records = .ok ws ∧
      image = { origin := p.origin, words := originHeader P p ++ ws } := by
  unfold assemble at h
  split at h
  · cases h
  · next p hp =>
    unfold Pass1.image at h
    split at h
    · cases h
    · next ws hws => exact ⟨p, ws, hp, hws, (Except.ok.inj h).symm⟩

/-- Settles O60. -/
theorem assembledRecordsLoadAtTheirAddresses : Obligations.AssembledRecordsLoadAtTheirAddresses := by
  intro source image origin regs input hassemble horigin
  obtain ⟨p, ws, hpass, hws, rfl⟩ := assemble_eq_ok hassemble
  cases laidOut_of_pass1 rfl hpass with
  | unset hunset => exact absurd (horigin.symm.trans hunset) nofun
  | set origin' a horigin' _ hrecords hfits =>
    obtain rfl : origin = origin' := Option.some.inj (horigin.symm.trans horigin')
    obtain ⟨hend, hstand⟩ := hrecords.words_of_pass2 hws
    obtain ⟨s, hload, hread⟩ := Machine.State.load_image origin (hend.trans_le hfits) regs input
    refine ⟨s, p, hload, hpass, fun r hr => ?_⟩
    obtain ⟨rws, hencode, i, haddr, hat⟩ := hstand r hr
    refine ⟨rws, hencode, fun k w hk => ?_⟩
    rw [← hread (i + k) w (hat k w hk), haddr, BitVec.ofNat_add, BitVec.ofNat_add, BitVec.ofNat_toNat, BitVec.setWidth_eq,
      BitVec.add_assoc]

end Sys2Proof.Asm
end

section
/-! PROOFS. The step: the next-PC multiplexer, the fetch and its report, the status of a word, and a word placed at the pc
(41_sequencer.md R150, R153, R154, R156). -/

namespace Sys2Proof.Machine

/-! ### The vector table (45_trap.md R221) -/

theorem trapService_eq_halt_iff (v : Vec8) : trapService v = some .halt ↔ v = 0x25 := by
  refine ⟨fun h => ?_, fun h => h ▸ rfl⟩
  by_contra hne
  simp only [trapService, if_neg hne] at h
  split_ifs at h <;> cases h

theorem trapService_eq_none_iff (v : Vec8) :
    trapService v = none ↔ v ≠ 0x20 ∧ v ≠ 0x21 ∧ v ≠ 0x22 ∧ v ≠ 0x23 ∧ v ≠ 0x25 := by
  constructor
  · intro h
    refine ⟨?_, ?_, ?_, ?_, ?_⟩ <;> rintro rfl <;> cases h
  · rintro ⟨hgetc, hout, hputs, hinp, hhalt⟩
    simp only [trapService, if_neg hgetc, if_neg hout, if_neg hputs, if_neg hinp, if_neg hhalt]

/-! ### The next pc (41_sequencer.md R156) -/

/-- The branch unit tests the masked flags (43_control.md R180). -/
theorem branch_pc (mask : BitVec 3) (off9 : Off9) (s : State) :
    (branch mask off9 s).pc = if mask &&& s.cond ≠ 0 then s.pc + off9.signExtend 16 else s.pc := by
  simp only [branch, branchTaken, bne_iff_ne, apply_ite State.pc]
  rfl

/-- Only HALT writes the pc (45_trap.md R227). -/
theorem ServiceDid.pc_eq {o : Option TrapService} {s t : State} (h : ServiceDid o s t) :
    t.pc = if o = some .halt then 0 else s.pc := by
  rcases o with _ | _ | _ | _ | _ | _
  case none => obtain rfl : t = _ := h; rfl
  case some.getc => obtain ⟨b, _, _, _, _, _, hpc, _⟩ := h; exact hpc
  case some.out => obtain ⟨bs, rfl⟩ := h; rfl
  case some.puts => obtain ⟨bs, rfl⟩ := h; rfl
  case some.inp => obtain ⟨b, _, _, _, _, _, hpc, _⟩ := h; exact hpc
  case some.halt => obtain rfl : t = _ := h; rfl

/-- BR, JMP, JSR, JSRR and TRAP have opcodes of their own; every other opcode is of a class that leaves the pc. -/
theorem classOf_pcKeeper {op : BitVec 4} (hbr : op ≠ 0b0000) (hjmp : op ≠ 0b1100) (hcall : op ≠ 0b0100)
    (htrap : op ≠ 0b1111) : classOf op = .result ∨ classOf op = .store ∨ classOf op = .nothing := by
  have hrest : ∀ op : BitVec 4, op ∉ flagWriters → ¬ (op = 0b0000 ∨ op = 0b1100) → op ≠ 0b0100 →
      ¬ (op = 0b0011 ∨ op = 0b1011 ∨ op = 0b0111) → ¬ (op = 0b1000 ∨ op = 0b1101) → op = 0b1111 := by decide
  have hjump := not_or.mpr ⟨hbr, hjmp⟩
  unfold classOf
  rw [if_neg hjump, if_neg hcall]
  split_ifs with hresult hstore hnothing
  · exact .inl rfl
  · exact .inr (.inl rfl)
  · exact .inr (.inr rfl)
  · exact absurd (hrest op hresult hjump hcall hstore hnothing) htrap

/-- The handlers of the operate, load and store instructions, of RTI and of the reserved opcode leave the incremented pc. -/
theorem OpClass.Did.pc_eq {c : OpClass} {ir : Word} {s t : State} (h : c.Did ir s t)
    (hc : c = .result ∨ c = .store ∨ c = .nothing) : t.pc = s.pc := by
  rcases hc with rfl | rfl | rfl
  · obtain ⟨v, rfl⟩ := h; rfl
  · obtain ⟨a, v, rfl⟩ := h; rfl
  · obtain rfl : t = s := h; rfl

/-- Settles O38: one source per opcode that selects one, and the class of every other opcode leaves the incremented pc. -/
theorem nextPcSources : Obligations.NextPcSources := by
  intro s t hstep
  have hexec : exec (decode (s.readWord s.pc)) s.advance = .next t := hstep
  refine ⟨fun hbr => ?_, fun hjmp => ?_, fun hcall => ?_, fun htrap => ?_, fun hbr hjmp hcall htrap => ?_⟩
  · rw [decode_of_br hbr, exec_decodeBr] at hexec
    cases hexec
    exact branch_pc _ _ _
  · rw [decode_of_jmp hjmp, exec_decodeJmp] at hexec
    cases hexec
    rfl
  · change t.pc = if jsrBit (s.readWord s.pc) then _ else _
    rw [decode_of_call hcall] at hexec
    split_ifs at hexec ⊢
    · cases hexec; rfl
    · cases hexec; rfl
  · have hserv : ServiceDid (trapService (vect8Field (s.readWord s.pc))) s.advance t :=
      step_did (c := .trap) hstep (congrArg classOf htrap)
    exact hserv.pc_eq.trans (if_congr (trapService_eq_halt_iff _) rfl rfl)
  · exact (step_did hstep rfl).pc_eq (classOf_pcKeeper hbr hjmp hcall htrap)

/-! ### The step and what it reports -/

/-- Settles O5. -/
theorem stepFetchesAdvancesExecutes : Obligations.StepFetchesAdvancesExecutes := by
  rintro s _ rfl
  refine ⟨rfl, fun t hexec => ?_⟩
  have hstep : step s = .next t := hexec
  rw [stepReport_default, hstep]
  rfl

theorem stepStatus_eq_unrecognizedOpcode_iff (ir : Word) :
    stepStatus ir = .unrecognizedOpcode ↔ opcodeField ir = 0b1101 := by
  unfold stepStatus
  split_ifs with hop
  · exact iff_of_true rfl hop
  · exact iff_of_false nofun hop
  · exact iff_of_false nofun hop

theorem stepStatus_eq_unrecognizedTrap_iff (ir : Word) :
    stepStatus ir = .unrecognizedTrap ↔ opcodeField ir = 0b1111 ∧ trapService (vect8Field ir) = none := by
  unfold stepStatus
  split_ifs with hop htrap
  · exact iff_of_false nofun fun h => absurd (hop.symm.trans h.1) (by decide)
  · exact iff_of_true rfl (by simpa using htrap)
  · exact iff_of_false nofun (by simpa using htrap)

/-- Settles O6: the two tests of the status, the second through the vector table. -/
theorem statusNamesUnrecognizedWords : Obligations.StatusNamesUnrecognizedWords := fun ir =>
  ⟨stepStatus_eq_unrecognizedOpcode_iff ir,
    (stepStatus_eq_unrecognizedTrap_iff ir).trans (and_congr_right' (trapService_eq_none_iff _))⟩

/-- Settles O44. -/
theorem placedWordRunsNext : Obligations.PlacedWordRunsNext := by
  intro s w hw
  have hword : tableWord 16 w = BitVec.ofNat 16 w := congrArg (BitVec.ofNat 16) (Nat.mod_eq_of_lt hw)
  unfold decodeTableWord State.withFetchWord
  rw [hword]
  exact ⟨rfl, step_writeWord_pc s _, s.readWord_writeWord_same s.pc _, keepsMemBut_writeWord s s.pc _, fun _ => rfl, rfl, rfl,
    rfl, rfl⟩

end Sys2Proof.Machine
end

section
/-! PROOFS. ADD, AND and NOT: the result with its flags and its frame, and the words of the formats OPR, OPI and NOT (42_operate.md
R170 to R172; 30_encoding.md R75 to R77). -/

namespace Sys2Proof.Machine

/-! ### The flagged register write (41_sequencer.md R152) -/

/-- A flagged register write changes its register and the flags, and nothing else. -/
theorem wroteResult_writeResult (dr : Reg) (v : Word) (s : State) : WroteResult dr v s (s.writeResult dr v) :=
  ⟨s.reg_writeResult_same dr v, flagsShow_of_cond (s.writeResult_cond dr v), fun _ hr => s.reg_writeResult_other v hr, rfl,
    fun _ => rfl, rfl, rfl⟩

/-! ### Words of format OPR, whatever the ignored bits (30_encoding.md R75, R88) -/

theorem decode_add_opr (dr sr1 sr2 : Reg) (dots : BitVec 2) :
    decode (0b0001#4 ++ dr ++ sr1 ++ 0b0#1 ++ dots ++ sr2) = .addReg dr sr1 sr2 := by
  rw [word_of_opr, decode_of_add (opcodeField_packRegs 0b0001#4 _ _ _), immBit_of_opr, sr2Field_of_opr, drField_packRegs,
    sr1Field_packRegs]
  rfl

theorem decode_and_opr (dr sr1 sr2 : Reg) (dots : BitVec 2) :
    decode (0b0101#4 ++ dr ++ sr1 ++ 0b0#1 ++ dots ++ sr2) = .andReg dr sr1 sr2 := by
  rw [word_of_opr, decode_of_and (opcodeField_packRegs 0b0101#4 _ _ _), immBit_of_opr, sr2Field_of_opr, drField_packRegs,
    sr1Field_packRegs]
  rfl

/-! ### The operate instructions -/

/-- Settles O8: both modes are flagged register writes of their sum, and each format has its mode bit. -/
theorem addWritesSumAndFlags : Obligations.AddWritesSumAndFlags := by
  refine ⟨fun dr sr1 sr2 s => ?reg, fun dr sr1 imm5 s => ?imm, decode_add_opr, fun dr sr1 imm5 => ?opi⟩
  case reg => exact ⟨_, rfl, wroteResult_writeResult dr _ s⟩
  case imm => exact ⟨_, rfl, wroteResult_writeResult dr _ s⟩
  case opi => exact (congrArg decode (word_of_opi _ dr sr1 _ imm5)).trans (decode_encode (.addImm dr sr1 imm5))

/-- Settles O9, as O8 with the conjunction. -/
theorem andWritesConjunctionAndFlags : Obligations.AndWritesConjunctionAndFlags := by
  refine ⟨fun dr sr1 sr2 s => ?reg, fun dr sr1 imm5 s => ?imm, decode_and_opr, fun dr sr1 imm5 => ?opi⟩
  case reg => exact ⟨_, rfl, wroteResult_writeResult dr _ s⟩
  case imm => exact ⟨_, rfl, wroteResult_writeResult dr _ s⟩
  case opi => exact (congrArg decode (word_of_opi _ dr sr1 _ imm5)).trans (decode_encode (.andImm dr sr1 imm5))

/-- Settles O10: the six low bits are a field of the packed word that NOT's line of the decoder does not read. -/
theorem notWritesComplementAndFlags : Obligations.NotWritesComplementAndFlags := by
  refine ⟨fun dr sr s => ⟨_, rfl, wroteResult_writeResult dr _ s⟩, fun dr sr dots => ?_, fun _ _ => rfl⟩
  change decode (packRegs 0b1001 dr sr dots) = .not dr sr
  rw [decode_of_not (opcodeField_packRegs _ _ _ _), drField_packRegs, sr1Field_packRegs]

end Sys2Proof.Machine
end

section
/-! PROOFS. The control transfers: a new pc, the link of a call, their frames, and the words of the formats BR, JMP, JSR, JSRR, RTI
and RSVD (43_control.md R180 to R187; 30_encoding.md R78 to R81, R85, R86). -/

namespace Sys2Proof.Machine

/-! ### The shared effects -/

/-- A new pc is all a jump changes (43_control.md R181). -/
theorem wentTo_setPc (a : Word) (s : State) : WentTo a s (s.setPc a) :=
  ⟨rfl, fun _ => rfl, rfl, fun _ => rfl, rfl, rfl⟩

/-- A branch, taken or not, changes the pc alone (43_control.md R180). -/
theorem wentTo_branch (mask : BitVec 3) (off9 : Off9) (s : State) :
    WentTo (if mask &&& s.cond ≠ 0 then s.pc + off9.signExtend 16 else s.pc) s (branch mask off9 s) := by
  obtain ⟨a, hbranch⟩ := branch_eq_setPc mask off9 s
  rw [← branch_pc, hbranch]
  exact wentTo_setPc a s

/-- A link and a new pc are all a call changes (43_control.md R184, R185). -/
theorem called_setReg_setPc (a : Word) (s : State) : Called a s ((s.setReg 7 s.pc).setPc a) :=
  ⟨s.reg_setReg_same 7 s.pc, rfl, fun _ hr => s.reg_setReg_other s.pc hr, rfl, fun _ => rfl, rfl, rfl⟩

/-- With the link written first, a base of R7 reads the link (43_control.md R185; the spec's decision D23). -/
theorem called_callThrough_linkFirst (baseR : Reg) (s : State) :
    Called (if baseR = 7 then s.pc else s.reg baseR) s (callThrough true baseR s) := by
  rw [← s.reg_setReg 7 baseR s.pc]
  exact called_setReg_setPc _ s

/-! ### The words, whatever their ignored bits (30_encoding.md R88) -/

theorem decode_jmp_word (dots : BitVec 3) (baseR : Reg) (dots' : BitVec 6) :
    decode (0b1100#4 ++ dots ++ baseR ++ dots') = decodeJmp baseR := by
  change decode (packRegs 0b1100 dots baseR dots') = decodeJmp baseR
  rw [decode_of_jmp (opcodeField_packRegs _ _ _ _), sr1Field_packRegs]

theorem decode_jsrr_word (dots : BitVec 2) (baseR : Reg) (dots' : BitVec 6) :
    decode (0b0100#4 ++ 0b0#1 ++ dots ++ baseR ++ dots') = .jsrr baseR := by
  rw [word_of_jsrr, decode_of_call (opcodeField_packRegs 0b0100#4 _ _ _), jsrBit_of_jsrr, sr1Field_packRegs]
  rfl

/-- Outside the reserved opcode and TRAP, a step's status is `ok` (41_sequencer.md R154). -/
theorem stepStatus_eq_ok {ir : Word} (hreserved : opcodeField ir ≠ 0b1101) (htrap : opcodeField ir ≠ 0b1111) :
    stepStatus ir = .ok := by
  unfold stepStatus
  rw [if_neg hreserved, decide_eq_false htrap]
  rfl

/-! ### The instructions -/

/-- A spelling and the one its word decodes to call the same operation (log 9). -/
theorem exec_decodedSpelling (i : Instr) (s : State) : exec i.decodedSpelling s = exec i s := by
  cases i
  case br => rfl
  case jmp baseR => exact exec_decodeJmp baseR s
  case trap v => exact exec_decodeTrap v s
  all_goals rfl

/-- Settles O4: the word of a spelling decodes to `decodedSpelling`. -/
theorem sharedWordsExecuteAlike : Obligations.SharedWordsExecuteAlike := by
  intro i s
  rw [decode_encode, exec_decodedSpelling]

/-- Settles O11: each row's handler is `branch` with the row's mask. -/
theorem branchTestsMaskedFlags : Obligations.BranchTestsMaskedFlags := by
  refine ⟨fun off9 s i mask hrow => ⟨branch mask off9 s, ?exec, wentTo_branch mask off9 s⟩, fun off9 => ?words⟩
  case exec =>
    simp only [List.mem_cons, Prod.mk.injEq, List.not_mem_nil, or_false] at hrow
    rcases hrow with ⟨rfl, rfl⟩ | ⟨rfl, rfl⟩ | ⟨rfl, rfl⟩ | ⟨rfl, rfl⟩ | ⟨rfl, rfl⟩ | ⟨rfl, rfl⟩ | ⟨rfl, rfl⟩ | ⟨rfl, rfl⟩ |
      ⟨rfl, rfl⟩ <;> rfl
  case words =>
    exact ⟨decode_encode (.brNone off9), decode_encode (.brp off9), decode_encode (.brz off9), decode_encode (.brzp off9),
      decode_encode (.brn off9), decode_encode (.brnp off9), decode_encode (.brnz off9), decode_encode (.brnzp off9)⟩

/-- Settles O14: under the default the base is read from the linked state, under the other value from the state before. -/
theorem callThroughRegisterLinksFirst : Obligations.CallThroughRegisterLinksFirst :=
  ⟨fun baseR s => ⟨_, rfl, called_callThrough_linkFirst baseR s⟩, fun baseR s => called_setReg_setPc (s.reg baseR) s,
    fun _ _ => rfl, fun _ s hbase => (callThrough_order hbase s).symm, decode_jsrr_word⟩

/-- Settles O12. -/
theorem jumpGoesToRegister : Obligations.JumpGoesToRegister :=
  ⟨fun baseR s => ⟨_, rfl, wentTo_setPc (s.reg baseR) s⟩, fun s => ⟨_, rfl, wentTo_setPc (s.reg 7) s⟩, fun _ => rfl,
    decode_jmp_word⟩

/-- Settles O13. -/
theorem callLinksAndGoesRelative : Obligations.CallLinksAndGoesRelative :=
  ⟨fun off11 s => ⟨_, rfl, called_setReg_setPc (s.pcRel11 off11) s⟩, fun off11 => decode_encode (.jsr off11)⟩

/-- Settles O15: the opcode alone decides both the decoding and the status. -/
theorem rtiAndReservedDoNothing : Obligations.RtiAndReservedDoNothing := by
  refine ⟨fun s => ⟨rfl, rfl⟩, fun dots => ?_⟩
  have hrti : opcodeField (0b1000#4 ++ dots) = 0b1000 := opcodeField_of_opcode _ dots
  have hreserved : opcodeField (0b1101#4 ++ dots) = 0b1101 := opcodeField_of_opcode _ dots
  exact ⟨decode_of_rti hrti, stepStatus_eq_ok (hrti ▸ by decide) (hrti ▸ by decide), decode_of_reserved hreserved,
    (stepStatus_eq_unrecognizedOpcode_iff _).mpr hreserved⟩

end Sys2Proof.Machine
end

section
/-! PROOFS. The loads and stores: each load is a flagged register write of a word or an address of the state it is given, each store
a write of one word with its frame, and the words of the formats PCREL and BASE (44_load_store.md R200 to R207; 30_encoding.md R82,
R83). -/

namespace Sys2Proof.Machine

/-! ### The shared effect of the stores -/

/-- A store changes the word at its address and nothing else (20_memory.md R55; 44_load_store.md R204 to R206). -/
theorem stored_writeWord (a v : Word) (s : State) : Stored a v s (s.writeWord a v) :=
  ⟨s.readWord_writeWord_same a v, keepsMemBut_writeWord s a v, s.writeWord_reg a v, rfl, rfl, rfl, rfl⟩

/-! ### The loads -/

/-- Settles O16. -/
theorem loadDirect : Obligations.LoadDirect :=
  ⟨fun dr off9 s => ⟨_, rfl, wroteResult_writeResult dr (s.readWord (s.pcRel9 off9)) s⟩,
    fun dr off9 => decode_encode (.ld dr off9)⟩

/-- Settles O17: the value written, and so the flags, is the word behind the pointer. -/
theorem loadIndirect : Obligations.LoadIndirect :=
  ⟨fun dr off9 s => ⟨_, rfl, wroteResult_writeResult dr (s.readWord (s.indirect off9)) s⟩,
    fun dr off9 => decode_encode (.ldi dr off9)⟩

/-- Settles O18: the address is computed in the state before the write, so DR may be the base. -/
theorem loadBaseOffset : Obligations.LoadBaseOffset :=
  ⟨fun dr baseR off6 s => ⟨_, rfl, wroteResult_writeResult dr (s.readWord (s.baseOff baseR off6)) s⟩,
    fun dr baseR off6 => decode_encode (.ldr dr baseR off6)⟩

/-- Settles O19: the value written is the address LD would read. -/
theorem loadEffectiveAddress : Obligations.LoadEffectiveAddress :=
  ⟨fun dr off9 s => ⟨_, rfl, wroteResult_writeResult dr (s.pcRel9 off9) s⟩, fun dr off9 => decode_encode (.lea dr off9)⟩

/-! ### The stores -/

/-- Settles O20. -/
theorem storeDirect : Obligations.StoreDirect :=
  ⟨fun sr off9 s => ⟨_, rfl, stored_writeWord (s.pcRel9 off9) (s.reg sr) s⟩, fun sr off9 => decode_encode (.st sr off9)⟩

/-- Settles O21: the pointer is read in the state before the write, so the store may be onto the pointer itself. -/
theorem storeIndirect : Obligations.StoreIndirect :=
  ⟨fun sr off9 s => ⟨_, rfl, stored_writeWord (s.indirect off9) (s.reg sr) s⟩, fun sr off9 => decode_encode (.sti sr off9)⟩

/-- Settles O22: base and source are both read before the write, so they may be one register. -/
theorem storeBaseOffset : Obligations.StoreBaseOffset :=
  ⟨fun sr baseR off6 s => ⟨_, rfl, stored_writeWord (s.baseOff baseR off6) (s.reg sr) s⟩,
    fun sr baseR off6 => decode_encode (.str sr baseR off6)⟩

end Sys2Proof.Machine
end

section
/-! PROOFS. The traps: what each service changes, the string PUTS writes, and the report of a TRAP's step (45_trap.md R220 to R227;
30_encoding.md R84). -/

namespace Sys2Proof.Machine

/-! ### The vector selects the service (45_trap.md R220, R221) -/

/-- Console output is all OUT and PUTS change (45_trap.md R223, R224). -/
theorem wrote_consoleWriteAll (bs : List Byte) (s : State) : Wrote bs s (s.consoleWriteAll bs) :=
  ⟨rfl, rfl, fun _ => rfl, rfl, rfl, fun _ => rfl⟩

/-- A vector outside the table does nothing (45_trap.md R226). -/
theorem takeTrap_of_none {v : Vec8} (hv : trapService v = none) (s : State) : takeTrap v s = .next s := by
  rw [takeTrap, hv]
  rfl

/-- Only the two input services can fail to complete (41_sequencer.md R159). -/
theorem takeTrap_completes {v : Vec8} {s : State} (hinput : v = 0x20 ∨ v = 0x23 → s.inStream ≠ []) :
    ∃ t, takeTrap v s = .next t := by
  unfold takeTrap
  rcases hv : trapService v with _ | _ | _ | _ | _ | _
  case some.getc =>
    obtain ⟨b, rest, hin⟩ := List.exists_cons_of_ne_nil (hinput (.inl (trapService_eq_getc hv)))
    exact ⟨_, serviceGetc_cons hin⟩
  case some.inp =>
    obtain ⟨b, rest, hin⟩ := List.exists_cons_of_ne_nil (hinput (.inr (trapService_eq_inp hv)))
    exact ⟨_, serviceIn_cons hin⟩
  all_goals exact ⟨_, rfl⟩

/-- The word of a TRAP runs its vector, whatever bits [11:8] are (30_encoding.md R84). -/
theorem exec_of_trapWord {ir : Word} (hop : opcodeField ir = 0b1111) (s : State) :
    exec (decode ir) s = takeTrap (vect8Field ir) s := by
  rw [decode_of_trap hop, exec_decodeTrap]

theorem step_of_trapWord {s : State} (hop : opcodeField s.fetch = 0b1111) :
    step s = takeTrap (vect8Field s.fetch) s.advance := exec_of_trapWord hop s.advance

/-- Settles O24: each clause is the row of its vector in the table, read in the state the trap leaves. -/
theorem trapSelectsService : Obligations.TrapSelectsService := by
  refine ⟨fun v s hinput => ?services, fun s => ⟨rfl, rfl, rfl, rfl, rfl, rfl⟩, fun dots v => funext fun s => ?word⟩
  case services =>
    obtain ⟨t, htrap⟩ := takeTrap_completes hinput
    refine ⟨t, htrap, ?getc, ?out, ?puts, ?inp, ?halt, fun hgetc hout hputs hinp hhalt => ?unrecognized⟩
    case getc => rintro rfl; exact serviceGetc_tookInput htrap
    case out => rintro rfl; cases htrap; exact wrote_consoleWriteAll _ s
    case puts => rintro rfl; exact htrap
    case inp => rintro rfl; exact serviceIn_tookInput htrap
    case halt => rintro rfl; cases htrap; exact wentTo_setPc 0 s
    case unrecognized =>
      rw [takeTrap_of_none ((trapService_eq_none_iff v).mpr ⟨hgetc, hout, hputs, hinp, hhalt⟩)] at htrap
      cases htrap
      rfl
  case word =>
    have hop : opcodeField (0b1111#4 ++ dots ++ v) = 0b1111 := opcodeField_of_trap _ dots v
    rw [exec_of_trapWord hop, vect8Field_of_trap]
    rfl

/-! ### The services -/

/-- Settles O26. -/
theorem getcTakesOneByte : Obligations.GetcTakesOneByte := by
  refine ⟨fun s b rest hin => ⟨_, serviceGetc_cons hin, ?_⟩, fun s hin => serviceGetc_nil hin⟩
  simpa [State.consoleWriteAll] using tookInput_of_setReg [] hin

/-- Settles O27: the echo is the byte taken. -/
theorem inTakesAndEchoesOneByte : Obligations.InTakesAndEchoesOneByte :=
  ⟨fun _ b _ hin => ⟨_, serviceIn_cons hin, tookInput_of_setReg [b] hin⟩, fun _ hin => serviceIn_nil hin⟩

/-- Settles O28. -/
theorem outWritesLowByte : Obligations.OutWritesLowByte :=
  fun s => ⟨_, rfl, wrote_consoleWriteAll _ s⟩

/-! ### The string of PUTS (45_trap.md R224) -/

theorem putsScan_of_printable {m : Memory} {a : Word} (h : Printable (m.read a)) (fuel : Nat) :
    putsScan (fuel + 1) m a = (m.read a).setWidth 8 :: putsScan fuel m (a + 1) := by
  obtain ⟨hzero, hle⟩ := h
  simp only [putsScan, if_neg hzero, if_neg (Nat.not_lt.mpr hle)]

theorem putsScan_of_not_printable {m : Memory} {a : Word} (h : ¬ Printable (m.read a)) (fuel : Nat) :
    putsScan fuel m a = [] := by
  cases fuel with
  | zero => rfl
  | succ fuel =>
    simp only [putsScan]
    split_ifs with hzero hgt
    · rfl
    · rfl
    · exact absurd ⟨hzero, Nat.not_lt.mp hgt⟩ h

/-- The scan writes a string of printable words, which an unprintable word or the bound ends. -/
theorem putsScan_eq_map (fuel : Nat) (m : Memory) (a : Word) : ∃ n ≤ fuel,
    (∀ k < n, Printable (m.read (a + BitVec.ofNat 16 k))) ∧
    (n < fuel → ¬ Printable (m.read (a + BitVec.ofNat 16 n))) ∧
    putsScan fuel m a = (List.range n).map fun k => (m.read (a + BitVec.ofNat 16 k)).extractLsb' 0 8 := by
  induction fuel generalizing a with
  | zero => exact ⟨0, le_rfl, nofun, nofun, rfl⟩
  | succ fuel ih =>
    by_cases hfirst : Printable (m.read a)
    · obtain ⟨n, hn, hprint, hstop, hscan⟩ := ih (a + 1)
      simp only [← add_ofNat_succ] at hprint hstop hscan
      refine ⟨n + 1, Nat.succ_le_succ hn, fun k hk => ?_, fun hlt => hstop (Nat.lt_of_succ_lt_succ hlt), ?_⟩
      · cases k with
        | zero => simpa using hfirst
        | succ k => exact hprint k (Nat.lt_of_succ_lt_succ hk)
      · rw [putsScan_of_printable hfirst, hscan, List.range_succ_eq_map, List.map_cons, List.map_map, BitVec.add_zero]
        rfl
    · exact ⟨0, Nat.zero_le _, nofun, fun _ => by simpa using hfirst, putsScan_of_not_printable hfirst _⟩

/-- Settles O29: the output is the scan of the whole memory from R0. -/
theorem putsWritesString : Obligations.PutsWritesString := by
  intro s
  obtain ⟨n, hn, hprint, hstop, hscan⟩ := putsScan_eq_map 65536 s.mem (s.reg 0)
  exact ⟨_, n, rfl, hn, hprint, hstop, hscan ▸ wrote_consoleWriteAll _ s⟩

/-- No TRAP word is a character: its value is xF000 or more (45_trap.md R224, last corner case). -/
theorem not_printable_of_trapWord {ir : Word} (hop : opcodeField ir = 0b1111) : ¬ Printable ir := by
  rintro ⟨-, hle⟩
  have hval : ir.toNat / 4096 % 16 = 15 := by
    simpa [opcodeField, BitVec.extractLsb'_toNat, Nat.shiftRight_eq_div_pow] using congrArg BitVec.toNat hop
  omega

/-- Settles O30: the PUTS word itself stands `pc - R0` words into the string and is not printable, so the scan ends there or
before. -/
theorem putsEndsWithinMemory : Obligations.PutsEndsWithinMemory := by
  intro s hop hvec
  obtain ⟨t, n, hexec, -, hprint, hstop, hwrote⟩ := putsWritesString s.advance
  obtain ⟨hout, -, -, -, hpc, -⟩ := hwrote
  have hown : n ≤ (s.pc - s.reg 0).toNat := by
    by_contra hgt
    have hself := hprint _ (Nat.not_le.mp hgt)
    rw [BitVec.ofNat_toNat, BitVec.setWidth_eq, State.advance_reg, BitVec.add_comm, BitVec.sub_add_cancel] at hself
    exact not_printable_of_trapWord hop hself
  have hputs : vect8Field s.fetch = 0x22 := hvec
  have hstep : step s = .next t := by
    rw [step_of_trapWord hop, hputs]
    exact hexec
  have hn : n < 65536 := by omega
  exact ⟨t, n, hstep, hn, hown, hstop hn, hpc, hout⟩

/-! ### The report of a TRAP's step (10_state.md R37; 41_sequencer.md R153, R154) -/

theorem stepStatus_of_service {ir : Word} (hop : opcodeField ir = 0b1111) (hserv : trapService (vect8Field ir) ≠ none) :
    stepStatus ir = .ok := by
  simp [stepStatus, hop, hserv]

/-- A TRAP that completes returns the pc it leaves: its word is not x0000. -/
theorem stepReport_of_trapWord {s t : State} (hop : opcodeField s.fetch = 0b1111)
    (htrap : takeTrap (vect8Field s.fetch) s.advance = .next t) :
    stepReport s = .next { after := t, stepRet := t.pc, status := stepStatus s.fetch } := by
  have hstep : step s = .next t := (step_of_trapWord hop).trans htrap
  have hne : s.fetch ≠ 0 := fun hzero => absurd (hzero ▸ hop) (by decide)
  rw [stepReport_default, hstep]
  simp only [stepReturn, if_neg hne]

/-- Settles O25: such a vector is none of the table's. -/
theorem unrecognizedTrapIsNoOp : Obligations.UnrecognizedTrapIsNoOp := by
  refine ⟨fun _ => rfl, fun s hop hvec => ?_⟩
  have hnone : trapService (vect8Field s.fetch) = none :=
    (trapService_eq_none_iff _).mpr (by simpa [vect8Field, State.fetch] using hvec)
  have hstatus : stepStatus s.fetch = .unrecognizedTrap := (stepStatus_eq_unrecognizedTrap_iff _).mpr ⟨hop, hnone⟩
  rw [stepReport_of_trapWord hop (takeTrap_of_none hnone s.advance), hstatus]
  rfl

/-- Settles O31. -/
theorem haltZeroesPc : Obligations.HaltZeroesPc := by
  refine ⟨fun s => ⟨_, rfl, wentTo_setPc 0 s⟩, fun s hop hvec => ?_⟩
  have hhalt : vect8Field s.fetch = 0x25 := hvec
  have htrap : takeTrap (vect8Field s.fetch) s.advance = .next (s.setPc 0) := by
    rw [hhalt]
    rfl
  have hstatus : stepStatus s.fetch = .ok := stepStatus_of_service hop (hhalt ▸ nofun)
  rw [stepReport_of_trapWord hop htrap, hstatus]
  rfl

end Sys2Proof.Machine
end

section
/-! PROOFS. The one stop of a step: GETC and IN without input (41_sequencer.md R159; 60_exceptions.md R240, R254; log 6). -/

namespace Sys2Proof.Machine

/-- The next step asks for an input byte that is not there (60_exceptions.md R254). -/
def AwaitsInput (s : State) : Prop :=
  s.inStream = [] ∧ opcodeField s.fetch = 0b1111 ∧ (vect8Field s.fetch = 0x20 ∨ vect8Field s.fetch = 0x23)

/-- The two input services are stuck without input (41_sequencer.md R159). -/
theorem takeTrap_of_no_input {v : Vec8} (hv : v = 0x20 ∨ v = 0x23) {s : State} (hin : s.inStream = []) :
    takeTrap v s = .fault .awaitingInput := by
  rcases hv with rfl | rfl
  · exact serviceGetc_nil hin
  · exact serviceIn_nil hin

/-- Every handler but TRAP's completes (60_exceptions.md R240). -/
theorem exec_decode_completes {ir : Word} (hop : opcodeField ir ≠ 0b1111) (s : State) : ∃ t, exec (decode ir) s = .next t := by
  have hd := decodedAs_decode ir
  generalize decode ir = i at hd ⊢
  cases hd
  case trap htrap => exact absurd htrap hop
  case br => exact ⟨_, exec_decodeBr _ _ s⟩
  case jmp => exact ⟨_, exec_decodeJmp _ s⟩
  all_goals exact ⟨_, rfl⟩

theorem step_of_awaitsInput {s : State} (h : AwaitsInput s) : step s = .fault .awaitingInput := by
  obtain ⟨hin, hop, hvec⟩ := h
  rw [step_of_trapWord hop]
  exact takeTrap_of_no_input hvec hin

theorem step_completes {s : State} (h : ¬ AwaitsInput s) : ∃ t, step s = .next t := by
  by_cases hop : opcodeField s.fetch = 0b1111
  · rw [step_of_trapWord hop]
    exact takeTrap_completes fun hvec hin => h ⟨hin, hop, hvec⟩
  · exact exec_decode_completes hop s.advance

/-- Settles O7: a step either awaits input, and then stops by the fault, or completes. -/
theorem stepStopsOnlyForInput : Obligations.StepStopsOnlyForInput := by
  intro s
  by_cases hwait : AwaitsInput s
  · rw [step_of_awaitsInput hwait]
    refine ⟨fun f => ⟨fun hfault => ?_, fun ⟨hf, _⟩ => hf ▸ rfl⟩, nofun⟩
    cases hfault
    exact ⟨rfl, hwait⟩
  · obtain ⟨t, hstep⟩ := step_completes hwait
    rw [hstep]
    exact ⟨fun f => iff_of_false nofun fun ⟨_, h⟩ => hwait h, nofun⟩

end Sys2Proof.Machine
end

section
/-! PROOFS. The console streams: only TRAP moves them, output grows at its end and input is taken from its front
(70_reset_and_hazards.md R267, 10_state.md R31). -/

namespace Sys2Proof.Machine

/-- A handler writes to the end of the output or not at all. -/
theorem Effect.outStream_append {s t : State} (h : Effect s t) : ∃ bs, t.outStream = s.outStream ++ bs := by
  cases h
  case echo b _ _ => exact ⟨[b], rfl⟩
  case output bs => exact ⟨bs, rfl⟩
  all_goals exact ⟨[], (List.append_nil _).symm⟩

/-- Only TRAP reads or writes the console. -/
theorem OpClass.Did.keepsStreams {c : OpClass} {ir : Word} {s t : State} (h : c.Did ir s t) (hc : c ≠ .trap) :
    KeepsStreams s t := by
  cases c
  case result => obtain ⟨v, rfl⟩ := h; exact ⟨rfl, rfl⟩
  case jump => obtain ⟨a, rfl⟩ := h; exact ⟨rfl, rfl⟩
  case call => obtain ⟨a, rfl⟩ := h; exact ⟨rfl, rfl⟩
  case store => obtain ⟨a, v, rfl⟩ := h; exact ⟨rfl, rfl⟩
  case nothing => obtain rfl : t = s := h; exact ⟨rfl, rfl⟩
  case trap => exact absurd rfl hc

theorem classOf_ne_trap {op : BitVec 4} (h : op ≠ 0b1111) : classOf op ≠ .trap := by
  by_cases hbr : op = 0b0000
  · rw [hbr]; nofun
  by_cases hjmp : op = 0b1100
  · rw [hjmp]; nofun
  by_cases hcall : op = 0b0100
  · rw [hcall]; nofun
  rcases classOf_pcKeeper hbr hjmp hcall h with hc | hc | hc
  · rw [hc]; nofun
  · rw [hc]; nofun
  · rw [hc]; nofun

/-! ### The services and the streams (45_trap.md R221 to R227) -/

/-- The vectors other than those of OUT, PUTS and IN name no service that writes. -/
theorem trapService_of_silent {v : Vec8} (h : v ∉ [0x21#8, 0x22#8, 0x23#8]) :
    trapService v = some .getc ∨ trapService v = some .halt ∨ trapService v = none := by
  obtain ⟨hout, hputs, hinp⟩ : v ≠ 0x21 ∧ v ≠ 0x22 ∧ v ≠ 0x23 := by simpa using h
  simp only [trapService, if_neg hout, if_neg hputs, if_neg hinp]
  split_ifs
  · exact .inl rfl
  · exact .inr (.inl rfl)
  · exact .inr (.inr rfl)

/-- GETC has no echo, and HALT and an unrecognized vector write nothing. -/
theorem ServiceDid.outStream_eq {o : Option TrapService} {s t : State} (h : ServiceDid o s t)
    (ho : o = some .getc ∨ o = some .halt ∨ o = none) : t.outStream = s.outStream := by
  rcases ho with rfl | rfl | rfl
  · obtain ⟨b, _, _, hout, _⟩ := h
    exact hout.trans (List.append_nil _)
  · obtain rfl : t = _ := h; rfl
  · obtain rfl : t = _ := h; rfl

/-- A service other than GETC and IN leaves the input. -/
theorem ServiceDid.inStream_eq {o : Option TrapService} {s t : State} (h : ServiceDid o s t) (hgetc : o ≠ some .getc)
    (hinp : o ≠ some .inp) : t.inStream = s.inStream := by
  rcases o with _ | _ | _ | _ | _ | _
  case none => obtain rfl : t = _ := h; rfl
  case some.getc => exact absurd rfl hgetc
  case some.out => obtain ⟨bs, rfl⟩ := h; rfl
  case some.puts => obtain ⟨bs, rfl⟩ := h; rfl
  case some.inp => exact absurd rfl hinp
  case some.halt => obtain rfl : t = _ := h; rfl

/-- GETC and IN take the next byte, and IN echoes it. -/
theorem ServiceDid.takes_next_byte {v : Vec8} {s t : State} (h : ServiceDid (trapService v) s t) (hv : v = 0x20 ∨ v = 0x23) :
    ∃ b, s.inStream = b :: t.inStream ∧ (v = 0x23 → t.outStream = s.outStream ++ [b]) := by
  rcases hv with rfl | rfl
  · obtain ⟨b, hin, _⟩ := h
    exact ⟨b, hin, nofun⟩
  · obtain ⟨b, hin, _, hout, _⟩ := h
    exact ⟨b, hin, fun _ => hout⟩

/-- Settles O39: a step of another opcode keeps both streams, and a TRAP does to them what the service of its vector does. -/
theorem streamsMoveInOrder : Obligations.StreamsMoveInOrder := by
  intro s t hstep
  have hkeeps : opcodeField (s.readWord s.pc) ≠ 0b1111 → KeepsStreams s t := fun hop =>
    (step_did hstep rfl).keepsStreams (classOf_ne_trap hop)
  have hserv : opcodeField (s.readWord s.pc) = 0b1111 →
      ServiceDid (trapService (vect8Field (s.readWord s.pc))) s.advance t := fun hop =>
    step_did (c := .trap) hstep (congrArg classOf hop)
  refine ⟨(step_effect hstep).outStream_append, fun hsilent => ?_, fun ⟨hop, hvec⟩ => (hserv hop).takes_next_byte hvec,
    fun hnot => ?_⟩
  · by_cases hop : opcodeField (s.readWord s.pc) = 0b1111
    · exact (hserv hop).outStream_eq (trapService_of_silent (hsilent.resolve_left (not_not_intro hop)))
    · exact (hkeeps hop).2
  · by_cases hop : opcodeField (s.readWord s.pc) = 0b1111
    · exact (hserv hop).inStream_eq (fun h => hnot ⟨hop, .inl (trapService_eq_getc h)⟩)
        fun h => hnot ⟨hop, .inr (trapService_eq_inp h)⟩
    · exact (hkeeps hop).1

end Sys2Proof.Machine
end

section
/-! PROOFS. The load: the memory of a `MEM_INIT` reads as that `MEM_INIT`, and the image is written over it
(70_reset_and_hazards.md R260, 10_state.md R40 to R43). -/

namespace Sys2Proof.Machine

/-- The cells of a `MEM_INIT` are its words that differ from what an unlisted address reads as. -/
theorem Memory.mem_ofInit (init : Word → Word) (a v : Word) :
    (a.toNat, v) ∈ Memory.ofInit init ↔ v = init a ∧ init a ≠ Config.memInit a := by
  unfold Memory.ofInit
  rw [List.mem_filterMap]
  constructor
  · rintro ⟨k, -, hcell⟩
    split_ifs at hcell with hsame
    cases hcell
    rw [BitVec.ofNat_toNat, BitVec.setWidth_eq] at hsame ⊢
    exact ⟨rfl, hsame⟩
  · rintro ⟨rfl, hne⟩
    refine ⟨a.toNat, List.mem_range.mpr a.isLt, ?_⟩
    rw [BitVec.ofNat_toNat, BitVec.setWidth_eq, if_neg hne]

theorem Memory.read_ofInit (init : Word → Word) (a : Word) : (Memory.ofInit init).read a = init a := by
  by_cases hread : (Memory.ofInit init).read a = Config.memInit a
  · by_contra hne
    have hlisted : (a.toNat, init a) ∈ Memory.ofInit init :=
      (Memory.mem_ofInit init a _).mpr ⟨rfl, fun hinit => hne (hread.trans hinit.symm)⟩
    exact hne (Memory.read_of_mem (Memory.ofInit_wf init).1 hlisted)
  · exact ((Memory.mem_ofInit init a _).mp (Memory.mem_of_read_ne _ hread)).1

/-- At the default `MEM_INIT` no address is listed (10_state.md R42; the spec's decision D6). -/
theorem Memory.ofInit_memInit : Memory.ofInit Config.memInit = [] :=
  List.filterMap_eq_nil_iff.mpr fun _ _ => if_pos rfl

theorem State.load_eq_loadWith (origin : Word) (ws : List Word) (regs : Option (List Int)) (input : List Byte) :
    State.load origin ws regs input = State.loadWith Config.memInit origin ws regs input := by
  rw [State.load, State.loadWith, Memory.ofInit_memInit]

/-- Settles O41: the memory is the image written over the memory of `MEM_INIT`. -/
theorem loadBuildsInitialState : Obligations.LoadBuildsInitialState := by
  refine fun init origin ws regs input => ⟨fun hover => if_pos hover, fun hfits => ?_,
    State.load_eq_loadWith origin ws regs input⟩
  have hwf : ((Memory.ofInit init).writeImage origin ws).wf := Memory.writeImage_wf (Memory.ofInit_wf init) origin ws
  refine ⟨_, if_neg (Nat.not_lt.mpr hfits), rfl, rfl, rfl, rfl, hwf, fun k w hk => ?image, fun a houtside => ?rest⟩
  case image => exact Memory.read_writeImage _ origin (by omega) hk
  case rest => exact (Memory.read_writeImage_outside _ houtside).trans (Memory.read_ofInit init a)

end Sys2Proof.Machine
end

section
/-! PROOFS. The decoder on the spec's example words (30_encoding.md R71, R72). -/

namespace Sys2Proof

/-- Settles O1: each conjunct is the decoder run on one word. -/
theorem specExampleWordsDecode : Obligations.SpecExampleWordsDecode := by
  unfold Obligations.SpecExampleWordsDecode
  decide

end Sys2Proof
end
